-- ==== Sys2Proof/Word.lean ====
section
/-! DEFINITION. The words of HDRDEC: the 16-bit word, the header of six words, and the transaction
the host puts on the command port. -/

namespace Sys2Proof

/-- A header word: 16 bits, unsigned, bit 0 the least significant (00_scope.md R8, R10). -/
abbrev Word := BitVec 16

/-- A message byte. Only the host's side has bytes (20_memory.md R44). -/
abbrev Byte := BitVec 8

/-- Six words, indexed 0 to 5, of fixed length (10_state.md R20). -/
abbrev Header := Vector Word 6

/-- One transaction on the command port: the pair of rule R60 (30_encoding.md). -/
structure RawCommand where
  /-- The command code. -/
  op  : BitVec 3
  /-- The construction data, read only when `op = 0b000`. -/
  din : BitVec 96
  deriving DecidableEq, Repr

end Sys2Proof
end

