-- ==== Sys2Proof/Config.lean ====
section
/-! DEFINITION. What a system around HDRDEC fixes. The parameters of 00_scope.md R6 are fixed values and
stand in the types (Word.lean) and the accessor rows (Machine/Operands.lean); one is open. -/

namespace Sys2Proof

/-- WORD_OF_BYTES: how the host turns message bytes into six words. It is OPEN and outside HDRDEC
(20_memory.md R44, 92_eei_decisions.md D23), so it has no body: a claim that names it holds
whatever it is. Log entry 9. -/
opaque Config.wordOfBytes : List Byte → Option Header

end Sys2Proof
end

