-- ==== Sys2Proof/Syntax.lean ====
section
/-! DEFINITION. The commands of HDRDEC-1: one constructor per row of spec/opcode_table.json. -/

namespace Sys2Proof

/-- The six commands (30_encoding.md R64). CONSTRUCT carries the six words that DIN packs; no other
command has an operand (30_encoding.md R63), its DIN being ignored (R65). -/
inductive Instr where
  | construct (w : Header)
  | identifier
  | direction
  | operation
  | authoritative
  | truncated
  deriving DecidableEq, Repr

/-- An accessor is "any of the five read-only commands" (00_scope.md R16). -/
def Instr.isAccessor (i : Instr) : Bool :=
  match i with
  | .construct _ => false
  | .identifier => true
  | .direction => true
  | .operation => true
  | .authoritative => true
  | .truncated => true

end Sys2Proof
end

