-- ==== Sys2Proof/WellFormed.lean ====
section
/-! DEFINITION. What a transaction decodes to, and which terms are well formed. -/

namespace Sys2Proof

/-- What a transaction means: a command of the opcode table, or a reserved code. Together these are
the seven constructors of 30_encoding.md R66; the reserved codes stand outside `Instr`, whose
constructors are the rows of the opcode table (log entry 7). -/
inductive Command where
  | instr (i : Instr)
  /-- `op = 0b110` or `0b111` (30_encoding.md R65). -/
  | illegal (op : BitVec 3)
  deriving DecidableEq, Repr

/-- The codes R64 gives no command (30_encoding.md): exactly 0b110 and 0b111. -/
def reservedOp (op : BitVec 3) : Bool :=
  match op with
  | 0b000#3 => false
  | 0b001#3 => false
  | 0b010#3 => false
  | 0b011#3 => false
  | 0b100#3 => false
  | 0b101#3 => false
  | 0b110#3 => true
  | 0b111#3 => true

/-- A transaction the host may present: "The host must never present OP = 0b110 or 0b111"
(70_reset_and_hazards.md R174). -/
def RawCommand.wf (c : RawCommand) : Bool := !reservedOp c.op

/-- Every instruction is well formed: the type of CONSTRUCT's operand already says six words of 16
bits, and "any bit pattern is accepted" (40_construct.md R80). -/
def Instr.wf (i : Instr) : Bool :=
  match i with
  | .construct _ => true
  | .identifier => true
  | .direction => true
  | .operation => true
  | .authoritative => true
  | .truncated => true

/-- A decoded command is well formed when `illegal` carries a reserved code and nothing else. -/
def Command.wf (c : Command) : Bool :=
  match c with
  | .instr i => i.wf
  | .illegal op => reservedOp op

/-- A literal operand of the assembler lies in `0x0000..0xFFFF` (30_encoding.md R69). -/
def literalWf (n : Nat) : Bool := n ≤ 0xFFFF

end Sys2Proof
end

