-- ==== Sys2Proof/Decode.lean ====
section
/-! DEFINITION. The decoder, total over the eight codes (30_encoding.md R64, R66), and the encoder. -/

namespace Sys2Proof

/-- The words DIN packs: word `i` at `DIN[16*i+15 : 16*i]` (30_encoding.md R62). -/
def wordsOfDin (din : BitVec 96) : Header :=
  #v[din.extractLsb' 0 16, din.extractLsb' 16 16, din.extractLsb' 32 16,
     din.extractLsb' 48 16, din.extractLsb' 64 16, din.extractLsb' 80 16]

/-- `DIN = {w5, w4, w3, w2, w1, w0}` (30_encoding.md R62). -/
def dinOfWords (w : Header) : BitVec 96 :=
  w[5] ++ w[4] ++ w[3] ++ w[2] ++ w[1] ++ w[0]

/-- The opcode map of 30_encoding.md R64, as R66 asks: a match over all eight values. -/
def decode (c : RawCommand) : Command :=
  match c.op with
  | 0b000#3 => .instr (.construct (wordsOfDin c.din))
  | 0b001#3 => .instr .identifier
  | 0b010#3 => .instr .direction
  | 0b011#3 => .instr .operation
  | 0b100#3 => .instr .authoritative
  | 0b101#3 => .instr .truncated
  | 0b110#3 => .illegal 0b110#3
  | 0b111#3 => .illegal 0b111#3

/-- The command code of an instruction (30_encoding.md R64). -/
def opOf (i : Instr) : BitVec 3 :=
  match i with
  | .construct _ => 0b000#3
  | .identifier => 0b001#3
  | .direction => 0b010#3
  | .operation => 0b011#3
  | .authoritative => 0b100#3
  | .truncated => 0b101#3

/-- The data an instruction is sent with. An accessor's DIN is a don't-care (30_encoding.md R65);
the encoder sends zero (DESIGN CHOICE, log entry 4). -/
def dinOf (i : Instr) : BitVec 96 :=
  match i with
  | .construct w => dinOfWords w
  | .identifier => 0
  | .direction => 0
  | .operation => 0
  | .authoritative => 0
  | .truncated => 0

/-- The transaction of an instruction. -/
def encode (i : Instr) : RawCommand := { op := opOf i, din := dinOf i }

/-- The transaction of a decoded command, a reserved code included. -/
def encodeCommand (c : Command) : RawCommand :=
  match c with
  | .instr i => encode i
  | .illegal op => { op := op, din := 0 }

/-- A command written as one number: OP in bits 2:0, DIN in bits 98:3; only the low `nbits` bits of
`w` are taken, the rest being zero (DESIGN CHOICE, log entry 3: the spec numbers the two fields
separately). -/
def tableCommand (nbits w : Nat) : RawCommand :=
  { op := BitVec.ofNat 3 (w % 2 ^ nbits), din := BitVec.ofNat 96 (w % 2 ^ nbits / 2 ^ 3) }

/-- The instruction a decoded command is, if it is one. -/
def Command.instr? (c : Command) : Option Instr :=
  match c with
  | .instr i => some i
  | .illegal _ => none

/-- The instruction the decoder reads from a command written as one number. -/
def decodeTableWord (nbits w : Nat) : Option Instr := (decode (tableCommand nbits w)).instr?

end Sys2Proof
end

