-- ==== Sys2Proof/Machine/State.lean ====
section
/-! DEFINITION. The state of HDRDEC (10_state.md R34), the host's side of its port, the values it
delivers, the reasons a step can stop, and the state after reset. -/

namespace Sys2Proof.Machine

/-- Decoded QR (00_scope.md R13). The variants keep the spec's own spelling. -/
inductive Direction where
  | REQUEST | RESPONSE
  deriving DecidableEq, Repr

/-- Decoded OPCODE; RESERVED is one named variant for the values 3 to 7 (00_scope.md R13, R14). -/
inductive Operation where
  | QUERY | INVERSE_QUERY | STATUS | RESERVED
  deriving DecidableEq, Repr

/-- Decoded AA (00_scope.md R13). -/
inductive Authority where
  | HAVE | NONE
  deriving DecidableEq, Repr

/-- Decoded TC (00_scope.md R13). -/
inductive Truncation where
  | FIT | TRUNCATED
  deriving DecidableEq, Repr

/-- What an accessor delivers, as the sum types of 00_scope.md R13. -/
inductive Result where
  | identifier (w : Word)
  | direction (d : Direction)
  | operation (o : Operation)
  | authority (a : Authority)
  | truncation (t : Truncation)
  deriving DecidableEq, Repr

/-- The three fault causes (60_exceptions.md R141). -/
inductive Cause where
  | illegalCommand | noHeader | internalConsistency
  deriving DecidableEq, Repr

/-- A performed command's response: "a result on the 16-bit RESULT port, or a fault instead of a
result" (30_encoding.md R61); CONSTRUCT delivers no result (R67). -/
inductive Response where
  | noResult
  | result (r : Result)
  | fault (c : Cause)
  deriving DecidableEq, Repr

/-- What the host presents: a command or a reset (70_reset_and_hazards.md R179). -/
inductive PortEvent where
  | command (c : RawCommand)
  | reset
  deriving DecidableEq, Repr

/-- Why a step has no next state. HDRDEC's own faults (60_exceptions.md R141) are NOT here: entering
one is a next state (R145). -/
inductive Fault where
  /-- Raised by every meaning, and by a step with no reset waiting, while FAULTED = 1: "no command
  has a step" (60_exceptions.md R146). Safe: the model stops where the block stands still. -/
  | stuck
  deriving DecidableEq, Repr

/-- Why a step is refused. -/
inductive Refusal where
  /-- An instruction of the opcode table with no meaning yet; raised only by `exec`, and by no arm of
  it in this model. Safe: nothing is claimed of it. -/
  | notModelled (mnemonic : String)
  deriving DecidableEq, Repr

/-- The block's state is `hdr` and `fault` (10_state.md R34: "Nothing else is state"). `port` and
`responses` are the host's side of it, held so that a run is data (log entries 1 and 2). -/
structure State where
  /-- HW[0..5] and VALID: `none` is VALID = 0, with no words at all (10_state.md R27). -/
  hdr : Option Header
  /-- FAULTED and CAUSE: `none` is FAULTED = 0 (10_state.md R28). -/
  fault : Option Cause
  /-- What the host presents next, in port order (20_memory.md R49). -/
  port : List PortEvent
  /-- What the commands performed so far responded, oldest first (30_encoding.md R61). -/
  responses : List Response
  deriving DecidableEq, Repr

/-- The reset column of 10_state.md R34, with nothing presented and nothing delivered yet. -/
def State.reset : State := { hdr := none, fault := none, port := [], responses := [] }

end Sys2Proof.Machine
end

