-- ==== Sys2Proof/Machine/Ops.lean ====
section
/-! DEFINITION. The operations every meaning is written with: reading and loading the header word
file, delivering a result, raising a fault, being accepted at all, reset, and the STATUS view. -/

namespace Sys2Proof.Machine

/-- The outcome of a step of HDRDEC. -/
abbrev Outcome := Host.Outcome State Fault Refusal

/-- `HW[i]` (00_scope.md R12), for the six indices that name a location (20_memory.md R40). It has no
value while VALID = 0 (10_state.md R27). -/
def State.word (s : State) (i : Fin 6) : Option Word := s.hdr.map fun h => h[i]

/-- All six words and VALID written together (20_memory.md R48). -/
def State.load (s : State) (w : Header) : State := { s with hdr := some w }

/-- FAULTED and CAUSE written (60_exceptions.md R145). -/
def State.enterFault (s : State) (c : Cause) : State := { s with fault := some c }

/-- A command's response reaches the host (30_encoding.md R61). -/
def State.respond (s : State) (r : Response) : State := { s with responses := s.responses ++ [r] }

/-- What the host presents next is now `es`. -/
def State.setPort (s : State) (es : List PortEvent) : State := { s with port := es }

/-- The reset event: HW holds no value, VALID, FAULTED and CAUSE are 0 (70_reset_and_hazards.md
R170). The host's side is not the block's and stays. -/
def State.takeReset (s : State) : State := { s with hdr := none, fault := none }

/-- `raise Fault(c)`: FAULTED and CAUSE are written, HW and VALID are not, and the command delivers no
result (60_exceptions.md R145). There is no handler and no return (R148). -/
def raise (c : Cause) (s : State) : Outcome := .next ((s.enterFault c).respond (.fault c))

/-- `result <- v` (00_scope.md R12). -/
def deliver (r : Result) (s : State) : Outcome := .next (s.respond (.result r))

/-- `assert_fatal(cond)` (00_scope.md R12), the command going on by `k` when `cond` holds. -/
def assertFatal (cond : Bool) (k : State → Outcome) (s : State) : Outcome :=
  match cond with
  | true => k s
  | false => raise .internalConsistency s

/-- A command is accepted only while FAULTED = 0; otherwise it has no step (60_exceptions.md R146,
and the first check of R147). -/
def accept (k : State → Outcome) (s : State) : Outcome :=
  match s.fault with
  | none => k s
  | some _ => .fault .stuck

/-- An accessor needs a header: NO_HEADER while VALID = 0 (60_exceptions.md R143, and the third check
of R147). -/
def withHeader (k : Header → State → Outcome) (s : State) : Outcome :=
  match s.hdr with
  | none => raise .noHeader s
  | some h => k h s

/-- The code of a cause (10_state.md R28, 60_exceptions.md R141). -/
def Cause.code (c : Cause) : BitVec 2 :=
  match c with
  | .illegalCommand => 0b01#2
  | .noHeader => 0b10#2
  | .internalConsistency => 0b11#2

/-- VALID (10_state.md R26). -/
def State.valid (s : State) : BitVec 1 :=
  match s.hdr with
  | none => 0#1
  | some _ => 1#1

/-- FAULTED (10_state.md R28). -/
def State.faulted (s : State) : BitVec 1 :=
  match s.fault with
  | none => 0#1
  | some _ => 1#1

/-- CAUSE, 0b00 while FAULTED = 0 (10_state.md R28). -/
def State.cause (s : State) : BitVec 2 :=
  match s.fault with
  | none => 0b00#2
  | some c => c.code

/-- STATUS = `{CAUSE, FAULTED, VALID}`, a view the host may sample in every state (10_state.md R29). -/
def State.status (s : State) : BitVec 4 := s.cause ++ s.faulted ++ s.valid

end Sys2Proof.Machine
end

