-- ==== Sys2Proof/Machine/Operands.lean ====
section
/-! DEFINITION. Where a command's data comes from: the fixed constants of each command code
(30_encoding.md R63) and the word multiplexer (42_flags_decode.md R100). -/

namespace Sys2Proof.Machine

/-- A row of the table of 30_encoding.md R63. These are constants, not state (10_state.md R25). -/
structure AccessorRow where
  /-- The index of the word read. -/
  index : Fin 6
  mask  : Word
  shift : Nat
  /-- The width of the value. -/
  width : Nat
  deriving DecidableEq, Repr

/-- IDENTIFIER's row. -/
def rowIdentifier : AccessorRow := { index := 0, mask := 0xFFFF#16, shift := 0, width := 16 }

/-- DIRECTION's row: QR, bit 0. -/
def rowDirection : AccessorRow := { index := 1, mask := 0x0001#16, shift := 0, width := 1 }

/-- OPERATION's row: OPCODE, bits 3:1. -/
def rowOperation : AccessorRow := { index := 1, mask := 0x000E#16, shift := 1, width := 3 }

/-- AUTHORITATIVE's row: AA, bit 4. -/
def rowAuthoritative : AccessorRow := { index := 1, mask := 0x0010#16, shift := 4, width := 1 }

/-- TRUNCATED's row: TC, bit 5. -/
def rowTruncated : AccessorRow := { index := 1, mask := 0x0020#16, shift := 5, width := 1 }

/-- The word multiplexer: HW[0] for IDENTIFIER and HW[1] for the flag accessors, never HW[2..5]
(42_flags_decode.md R100). -/
def mux (r : AccessorRow) (h : Header) : Word := h[r.index]

end Sys2Proof.Machine
end

