-- ==== Sys2Proof/Machine/Flags.lean ====
section
/-! DEFINITION. The mask-and-shift unit, the maps from a field's value to its variant, and the codes
of the variants on the RESULT port. -/

namespace Sys2Proof.Machine

/-- The mask-and-shift unit (42_flags_decode.md R101): AND, then a logical right shift. -/
def extract (w mask : Word) (sh : Nat) : Word := (w &&& mask) >>> sh

/-- What the datapath gives an accessor: the multiplexed word through the mask-and-shift unit. -/
def AccessorRow.value (r : AccessorRow) (h : Header) : Word := extract (mux r h) r.mask r.shift

/-- QR's variant. The value is typed as the 1-bit value R103 allows (42_flags_decode.md), so there is
no fault arm (90_conflicts.md C1). -/
def directionOf (v : BitVec 1) : Direction :=
  match v with
  | 0#1 => .REQUEST
  | 1#1 => .RESPONSE

/-- OPCODE's variant, all eight values written out (42_flags_decode.md R104, 00_scope.md R14). -/
def operationOf (v : BitVec 3) : Operation :=
  match v with
  | 0#3 => .QUERY
  | 1#3 => .INVERSE_QUERY
  | 2#3 => .STATUS
  | 3#3 => .RESERVED
  | 4#3 => .RESERVED
  | 5#3 => .RESERVED
  | 6#3 => .RESERVED
  | 7#3 => .RESERVED

/-- AA's variant, `none` for a value outside 0 and 1: the case of 42_flags_decode.md R105 that
raises INTERNAL_CONSISTENCY. -/
def authorityOf (v : Word) : Option Authority :=
  match v with
  | 0#16 => some .NONE
  | 1#16 => some .HAVE
  | _ => none

/-- TC's variant, `none` for a value outside 0 and 1: the case of 42_flags_decode.md R106 that
raises INTERNAL_CONSISTENCY. -/
def truncationOf (v : Word) : Option Truncation :=
  match v with
  | 0#16 => some .FIT
  | 1#16 => some .TRUNCATED
  | _ => none

/-- A variant's code on the RESULT port (30_encoding.md R68). -/
def Direction.code (d : Direction) : Word :=
  match d with
  | .REQUEST => 0
  | .RESPONSE => 1

/-- A variant's code on the RESULT port (30_encoding.md R68); RESERVED has one code for 3 to 7. -/
def Operation.code (o : Operation) : Word :=
  match o with
  | .QUERY => 0
  | .INVERSE_QUERY => 1
  | .STATUS => 2
  | .RESERVED => 3

/-- A variant's code on the RESULT port (30_encoding.md R68). -/
def Authority.code (a : Authority) : Word :=
  match a with
  | .NONE => 0
  | .HAVE => 1

/-- A variant's code on the RESULT port (30_encoding.md R68). -/
def Truncation.code (t : Truncation) : Word :=
  match t with
  | .FIT => 0
  | .TRUNCATED => 1

/-- RESULT[15:0] for a result (30_encoding.md R67). -/
def Result.code (r : Result) : Word :=
  match r with
  | .identifier w => w
  | .direction d => d.code
  | .operation o => o.code
  | .authority a => a.code
  | .truncation t => t.code

/-- What the RESULT port carries for a response: nothing for CONSTRUCT (30_encoding.md R67) and
nothing for a fault (60_exceptions.md R145). -/
def Response.resultPort (r : Response) : Option Word :=
  match r with
  | .noResult => none
  | .result v => some v.code
  | .fault _ => none

/-- The RESULT port after the last performed command. -/
def State.resultPort (s : State) : Option Word := s.responses.getLast?.bind Response.resultPort

end Sys2Proof.Machine
end

