-- ==== Sys2Proof/Machine/Construct.lean ====
section
/-! DEFINITION. The construction family: CONSTRUCT (40_construct.md). -/

namespace Sys2Proof.Machine

/-- CONSTRUCT: all six words and VALID in one atomic update, no validation, no result
(40_construct.md R80 to R83). -/
def execConstruct (w : Header) (s : State) : Outcome :=
  accept (fun s => .next ((s.load w).respond .noResult)) s

end Sys2Proof.Machine
end

