-- ==== Sys2Proof/Machine/FlagAccessors.lean ====
section
/-! DEFINITION. The flag accessor family: DIRECTION, OPERATION, AUTHORITATIVE, TRUNCATED
(42_flags_decode.md). -/

namespace Sys2Proof.Machine

/-- DIRECTION decodes QR (42_flags_decode.md R103). -/
def execDirection (s : State) : Outcome :=
  accept (withHeader fun h =>
    deliver (.direction (directionOf ((rowDirection.value h).setWidth 1)))) s

/-- OPERATION decodes OPCODE (42_flags_decode.md R104). -/
def execOperation (s : State) : Outcome :=
  accept (withHeader fun h =>
    deliver (.operation (operationOf ((rowOperation.value h).setWidth 3)))) s

/-- The last part of AUTHORITATIVE, over the extracted 16-bit value: its variant, or the fatal
INTERNAL_CONSISTENCY (42_flags_decode.md R105). -/
def finishAuthoritative (v : Word) (s : State) : Outcome :=
  match authorityOf v with
  | some a => deliver (.authority a) s
  | none => raise .internalConsistency s

/-- AUTHORITATIVE decodes AA (42_flags_decode.md R105). -/
def execAuthoritative (s : State) : Outcome :=
  accept (withHeader fun h => finishAuthoritative (rowAuthoritative.value h)) s

/-- The last part of TRUNCATED, over the extracted 16-bit value: its variant, or the fatal
INTERNAL_CONSISTENCY (42_flags_decode.md R106). -/
def finishTruncated (v : Word) (s : State) : Outcome :=
  match truncationOf v with
  | some t => deliver (.truncation t) s
  | none => raise .internalConsistency s

/-- TRUNCATED decodes TC (42_flags_decode.md R106). -/
def execTruncated (s : State) : Outcome :=
  accept (withHeader fun h => finishTruncated (rowTruncated.value h)) s

end Sys2Proof.Machine
end

