-- ==== Sys2Proof/Machine/Identifier.lean ====
section
/-! DEFINITION. The identifier family: IDENTIFIER (41_identifier.md). -/

namespace Sys2Proof.Machine

/-- IDENTIFIER: word 0 unchanged, with no masking and no shifting (41_identifier.md R90). -/
def execIdentifier (s : State) : Outcome :=
  accept (withHeader fun h => deliver (.identifier (mux rowIdentifier h))) s

end Sys2Proof.Machine
end

