-- ==== Sys2Proof/Machine/Dispatch.lean ====
section
/-! DEFINITION. exec: one arm per constructor of Instr. -/

namespace Sys2Proof.Machine

/-- What each command does; every meaning makes its checks in the order of 60_exceptions.md R147. -/
def exec (i : Instr) (s : State) : Host.Outcome State Fault Refusal :=
  match i with
  | .construct w => Sys2Proof.Machine.execConstruct w s
  | .identifier => Sys2Proof.Machine.execIdentifier s
  | .direction => Sys2Proof.Machine.execDirection s
  | .operation => Sys2Proof.Machine.execOperation s
  | .authoritative => Sys2Proof.Machine.execAuthoritative s
  | .truncated => Sys2Proof.Machine.execTruncated s

end Sys2Proof.Machine
end

