-- ==== Sys2Proof/Machine/Reserved.lean ====
section
/-! DEFINITION. The reserved codes 0b110 and 0b111 (60_exceptions.md R144). -/

namespace Sys2Proof.Machine

/-- A reserved code raises ILLEGAL_COMMAND whatever DIN holds and whatever VALID is
(60_exceptions.md R144), once it is accepted (R147). It records no command bits (R141). -/
def execIllegal (_op : BitVec 3) (s : State) : Outcome := accept (raise .illegalCommand) s

end Sys2Proof.Machine
end

