-- ==== Sys2Proof/Machine/Port.lean ====
section
/-! DEFINITION. The command port: what the block takes next from the host, and what it does with it. -/

namespace Sys2Proof.Machine

/-- What the host presents after its next reset; `none` if it presents no reset. -/
def afterReset (es : List PortEvent) : Option (List PortEvent) :=
  match es with
  | [] => none
  | .reset :: rest => some rest
  | .command _ :: rest => afterReset rest

/-- The event the block takes next, and the state with the port moved past it. While FAULTED = 0 it is
whatever the host presents first. While FAULTED = 1 commands are "not accepted" and "reset is
still taken" (60_exceptions.md R146): the commands presented before the next reset are lost
(log entry 5). -/
def takeEvent (s : State) : Option (PortEvent × State) :=
  match s.fault with
  | none =>
    match s.port with
    | [] => none
    | e :: rest => some (e, s.setPort rest)
  | some _ =>
    match afterReset s.port with
    | none => none
    | some rest => some (.reset, s.setPort rest)

/-- Nothing to take: while FAULTED = 0 the block "waits for the host's first command"
(70_reset_and_hazards.md R172), nothing changing (log entry 6); while FAULTED = 1 it is "stuck
until reset" (60_exceptions.md R146). -/
def idle (s : State) : Outcome := accept (fun s => .next s) s

/-- A decoded command is performed: the checks and effects are its meaning's (60_exceptions.md R147). -/
def perform (c : Command) (s : State) : Outcome :=
  match c with
  | .instr i => exec i s
  | .illegal op => execIllegal op s

/-- An event is performed as one atomic step (70_reset_and_hazards.md R170, R178). -/
def performEvent (e : PortEvent) (s : State) : Outcome :=
  match e with
  | .command c => perform (decode c) s
  | .reset => .next s.takeReset

/-- One step of the block: the next event, or none. -/
def stepPort (s : State) : Outcome :=
  match takeEvent s with
  | none => idle s
  | some (e, s') => performEvent e s'

/-- The host presents `e` before anything else. -/
def State.present (s : State) (e : PortEvent) : State := s.setPort (e :: s.port)

/-- The host's command that constructs a header from message bytes, if its conversion gives six words
(20_memory.md R44; the conversion is open, log entry 9). -/
def constructOfBytes (bytes : List Byte) : Option PortEvent :=
  (Config.wordOfBytes bytes).map fun w => .command (encode (.construct w))

end Sys2Proof.Machine
end

