-- ==== Sys2Proof/Machine/Step.lean ====
section
/-! DEFINITION. One step of the machine, and how the host's table words reach it. -/

namespace Sys2Proof.Machine

/-- One step (70_reset_and_hazards.md R178). -/
def step (s : State) : Host.Outcome State Fault Refusal := stepPort s

/-- `s` with the command that `w` is the number of presented next. HDRDEC fetches nothing
(20_memory.md R55), so a program comes from outside the machine: the host presents it, and this
stands for that (log entry 4). -/
def State.withFetchWord (s : State) (nbits w : Nat) : State :=
  s.present (.command (tableCommand nbits w))

end Sys2Proof.Machine
end

