-- ==== Sys2Proof/Machine/Assembler.lean ====
section
/-! DEFINITION. The command syntax of 30_encoding.md R69, one line at a time. It has no behaviour of
the block (92_eei_decisions.md D22): it says which transaction a line of a program spells. What R69
leaves open of the text itself (separators, decimal literals, white space) is log entry 8. -/

namespace Sys2Proof.Machine

/-- A word of a line, or a comma. -/
inductive Token where
  | word (cs : List Char)
  | comma
  deriving DecidableEq, Repr

/-- The word collected so far, if there is one, put before the tokens that follow. -/
def closeWord (cur : List Char) (ts : List Token) : List Token :=
  match cur with
  | [] => ts
  | c :: cs => .word (c :: cs) :: ts

/-- The tokens of a line; `cur` is the word being collected. `;` starts a comment. -/
def tokens (cur : List Char) (cs : List Char) : List Token :=
  match cs with
  | [] => closeWord cur []
  | c :: rest =>
    if c = ';' then closeWord cur []
    else if c = ',' then closeWord cur (.comma :: tokens [] rest)
    else if c.isWhitespace then closeWord cur (tokens [] rest)
    else tokens (cur ++ [c]) rest

/-- A digit's value in a base of at most 16. -/
def digitValue (base : Nat) (c : Char) : Option Nat :=
  let v :=
    if '0' ≤ c ∧ c ≤ '9' then c.toNat - '0'.toNat
    else if 'a' ≤ c ∧ c ≤ 'f' then c.toNat - 'a'.toNat + 10
    else if 'A' ≤ c ∧ c ≤ 'F' then c.toNat - 'A'.toNat + 10
    else 16
  if v < base then some v else none

/-- Digits read from the left, `acc` being the value so far. -/
def digitsValue (base acc : Nat) (cs : List Char) : Option Nat :=
  match cs with
  | [] => some acc
  | c :: rest =>
    match digitValue base c with
    | none => none
    | some v => digitsValue base (acc * base + v) rest

/-- At least one digit. -/
def numeral (base : Nat) (cs : List Char) : Option Nat :=
  match cs with
  | [] => none
  | c :: rest => digitsValue base 0 (c :: rest)

/-- A literal: `0x` hexadecimal, `0b` binary (00_scope.md R11), else decimal. -/
def literal (cs : List Char) : Option Nat :=
  match cs with
  | '0' :: 'x' :: ds => numeral 16 ds
  | '0' :: 'b' :: ds => numeral 2 ds
  | ds => numeral 10 ds

/-- Literals with a comma between each two. -/
def operands (ts : List Token) : Option (List Nat) :=
  match ts with
  | [.word w] => (literal w).map fun n => [n]
  | .word w :: .comma :: rest =>
    match literal w with
    | none => none
    | some n => (operands rest).map fun ns => n :: ns
  | _ => none

/-- CONSTRUCT's six operands, word 0 first; "A literal outside 0..0xFFFF is refused" (R69). -/
def constructOperands (ns : List Nat) : Option Instr :=
  match ns with
  | [a, b, c, d, e, f] =>
    if [a, b, c, d, e, f].all literalWf then
      some (.construct #v[BitVec.ofNat 16 a, BitVec.ofNat 16 b, BitVec.ofNat 16 c,
        BitVec.ofNat 16 d, BitVec.ofNat 16 e, BitVec.ofNat 16 f])
    else none
  | _ => none

/-- `.illegal` spells a reserved code, and no other (R69). -/
def illegalOperand (ns : List Nat) : Option Command :=
  match ns with
  | [6] => some (.illegal 0b110#3)
  | [7] => some (.illegal 0b111#3)
  | _ => none

/-- The five mnemonics that take no operand (R69), in capitals. -/
def accessorNamed (m : String) : Option Instr :=
  if m = "IDENTIFIER" then some .identifier
  else if m = "DIRECTION" then some .direction
  else if m = "OPERATION" then some .operation
  else if m = "AUTHORITATIVE" then some .authoritative
  else if m = "TRUNCATED" then some .truncated
  else none

/-- A mnemonic, in capitals, with its operand tokens. -/
def assembleNamed (m : String) (ts : List Token) : Option Command :=
  if m = "CONSTRUCT" then ((operands ts).bind constructOperands).map Command.instr
  else if m = ".ILLEGAL" then (operands ts).bind illegalOperand
  else
    match ts with
    | [] => (accessorNamed m).map Command.instr
    | _ :: _ => none

/-- What a line spells, mnemonics being case-insensitive (R69): `none` where the assembler refuses it,
`some none` for a line with no command. -/
def assembleLine (cs : List Char) : Option (Option RawCommand) :=
  match tokens [] cs with
  | [] => some none
  | .comma :: _ => none
  | .word w :: ts =>
    (assembleNamed (String.ofList (w.map Char.toUpper)) ts).map fun c => some (encodeCommand c)

/-- The transactions of a program's lines, in order; `none` if a line is refused. -/
def assemble (lines : List (List Char)) : Option (List RawCommand) :=
  match lines with
  | [] => some []
  | l :: rest =>
    match assembleLine l, assemble rest with
    | some none, some cs => some cs
    | some (some c), some cs => some (c :: cs)
    | _, _ => none

end Sys2Proof.Machine
end

