-- ==== Sys2Proof/Safety.lean ====
section
/-! DEFINITION. The terms claims use: how a run ends, what is observed of it, the closed form of the
accessors' results, and the invariant of the machine. -/

namespace Sys2Proof.Machine

/-- `s` after a command that faults with `c`, written out field by field (60_exceptions.md R145). -/
def State.withFault (s : State) (c : Cause) : State :=
  { hdr := s.hdr, fault := some c, port := s.port, responses := s.responses ++ [.fault c] }

/-- `s` after a command that delivers `r` and changes nothing else (20_memory.md R50). -/
def State.withResult (s : State) (r : Result) : State :=
  { hdr := s.hdr, fault := s.fault, port := s.port, responses := s.responses ++ [.result r] }

/-- `s` after a CONSTRUCT of `w`, written out field by field (40_construct.md R80). -/
def State.withConstructed (s : State) (w : Header) : State :=
  { hdr := some w, fault := s.fault, port := s.port, responses := s.responses ++ [.noResult] }

/-- The host presents a command. -/
def PortEvent.ofInstr (i : Instr) : PortEvent := .command (encode i)

/-- The results delivered, one per accessor performed without a fault (70_reset_and_hazards.md R179). -/
def State.results (s : State) : List Result :=
  s.responses.filterMap fun r =>
    match r with
    | .noResult => none
    | .result v => some v
    | .fault _ => none

/-- The observation of a run that ends well (70_reset_and_hazards.md R179). -/
structure Observation where
  results : List Result
  hdr : Option Header
  deriving DecidableEq, Repr

/-- What is observed in a state at the end of a run. -/
def State.observation (s : State) : Observation := { results := s.results, hdr := s.hdr }

/-- Whether the next step performs a command: what it takes from the port is one (an accepted command,
60_exceptions.md R146), and not a reset or nothing. -/
def State.acceptsCommand (s : State) : Bool :=
  match takeEvent s with
  | none => false
  | some (.command _, _) => true
  | some (.reset, _) => false

/-- Up to `k` steps from `s`, stopping where there is no step, and then the state after the last accepted
command (70_reset_and_hazards.md R179): `last` is the one after the last command accepted so far, and
a step that takes a reset, or waits, leaves it (log entry 13). -/
def runToEnd (k : Nat) (last s : State) : State :=
  match k with
  | 0 => last
  | k + 1 =>
    match step s with
    | .next t => runToEnd k (if s.acceptsCommand then t else last) t
    | .fault _ => last
    | .refused _ => last

/-- The end state of the run that presents `es` from a reset state (70_reset_and_hazards.md R179). Every
event takes at most one step. -/
def endState (es : List PortEvent) : State :=
  runToEnd es.length (State.reset.setPort es) (State.reset.setPort es)

/-- "A run ends well if FAULTED = 0 at the end" (70_reset_and_hazards.md R179). -/
def EndsWell (es : List PortEvent) : Prop := (endState es).fault = none

/-- The observation of a run, which it has if it ends well (70_reset_and_hazards.md R179). -/
def runObservation (es : List PortEvent) : Option Observation :=
  match (endState es).fault with
  | none => some (endState es).observation
  | some _ => none

/-- The response of each command over the header `h`, written from the closed form of
42_flags_decode.md R108 and from 41_identifier.md R90, not from the mask-and-shift datapath. -/
def specResponse (i : Instr) (h : Header) : Response :=
  match i with
  | .construct _ => .noResult
  | .identifier => .result (.identifier h[0])
  | .direction => .result (.direction (if h[1].getLsbD 0 then .RESPONSE else .REQUEST))
  | .operation =>
    .result (.operation
      (if h[1].extractLsb' 1 3 = 0 then .QUERY
       else if h[1].extractLsb' 1 3 = 1 then .INVERSE_QUERY
       else if h[1].extractLsb' 1 3 = 2 then .STATUS
       else .RESERVED))
  | .authoritative => .result (.authority (if h[1].getLsbD 4 then .HAVE else .NONE))
  | .truncated => .result (.truncation (if h[1].getLsbD 5 then .TRUNCATED else .FIT))

/-- The header the next command sees: the words of `i` if it is a CONSTRUCT, else `h`
(20_memory.md R51). -/
def headerAfter (i : Instr) (h : Header) : Header :=
  match i with
  | .construct w => w
  | .identifier => h
  | .direction => h
  | .operation => h
  | .authoritative => h
  | .truncated => h

/-- The responses of a command stream over a loaded header, each command seeing the most recent
CONSTRUCT before it (20_memory.md R51). -/
def streamResponses (h : Header) (is : List Instr) : List Response :=
  match is with
  | [] => []
  | i :: rest => specResponse i h :: streamResponses (headerAfter i h) rest

/-- The header a command stream leaves (20_memory.md R51). -/
def streamHeader (h : Header) (is : List Instr) : Header :=
  match is with
  | [] => h
  | i :: rest => streamHeader (headerAfter i h) rest

/-- `zs` is a merge of two callers' lists, each kept in its own order (20_memory.md R52). -/
inductive Interleaves {α : Type} : List α → List α → List α → Prop where
  | nil : Interleaves [] [] []
  | left {xs ys zs : List α} (x : α) : Interleaves xs ys zs → Interleaves (x :: xs) ys (x :: zs)
  | right {xs ys zs : List α} (y : α) : Interleaves xs ys zs → Interleaves xs (y :: ys) (y :: zs)

/-- The invariant every step keeps: STATUS is one of the values a step can lead to (NO_HEADER only with
no header, INTERNAL_CONSISTENCY never), and while FAULTED = 1 the last response is that fault. -/
def State.Inv (s : State) : Prop :=
  s.status ∈ [0x0#4, 0x1#4, 0x6#4, 0x7#4, 0xA#4] ∧
  ∀ c, s.fault = some c → s.responses.getLast? = some (.fault c)

end Sys2Proof.Machine
end

