-- ==== Sys2Proof/Certificates/Slice0/Obligations.lean ====
section
/-! DEFINITION. The statements for the provers. Each docstring names the rule of spec/ it formalises,
or, where the statement rests on an inference the spec marks as its own or on a choice of the
model, says so. -/

open Sys2Proof Sys2Proof.Machine

/-! ### Encoding -/

/-- 30_encoding.md R66: the decoder is total, and each of the eight codes gives one constructor. -/
def Obligations.DecoderMapsEveryCode : Prop :=
  ∀ din : BitVec 96,
    (∃ w : Header, decode ⟨0b000#3, din⟩ = .instr (.construct w) ∧
      ∀ i : Fin 6, w[i] = din.extractLsb' (16 * i.val) 16) ∧
    decode ⟨0b001#3, din⟩ = .instr .identifier ∧
    decode ⟨0b010#3, din⟩ = .instr .direction ∧
    decode ⟨0b011#3, din⟩ = .instr .operation ∧
    decode ⟨0b100#3, din⟩ = .instr .authoritative ∧
    decode ⟨0b101#3, din⟩ = .instr .truncated ∧
    decode ⟨0b110#3, din⟩ = .illegal 0b110#3 ∧
    decode ⟨0b111#3, din⟩ = .illegal 0b111#3

/-- 30_encoding.md R62: DIN packs word `i` at `DIN[16*i+15 : 16*i]`, which is `{w5, ..., w0}`, and
unpacking and packing undo each other. -/
def Obligations.DinPacksTheSixWordsByIndex : Prop :=
  (∀ (din : BitVec 96) (i : Fin 6), (wordsOfDin din)[i] = din.extractLsb' (16 * i.val) 16) ∧
  (∀ w : Header, dinOfWords w = w[5] ++ w[4] ++ w[3] ++ w[2] ++ w[1] ++ w[0]) ∧
  (∀ w : Header, wordsOfDin (dinOfWords w) = w) ∧
  (∀ din : BitVec 96, dinOfWords (wordsOfDin din) = din)

/-- Decoding what the encoder sends gives the instruction back, with every operand at every value, and
the same for every well-formed decoded command (a reserved code included). -/
def Obligations.DecodeOfEncodeIsTheInstruction : Prop :=
  (∀ i : Instr, i.wf = true → decode (encode i) = .instr i) ∧
  (∀ c : Command, c.wf = true → decode (encodeCommand c) = c)

/-- The other direction: a transaction decodes to `i` exactly when it carries the code of `i` and, for
CONSTRUCT alone, the data of `i`. -/
def Obligations.DecodesExactlyItsTransactions : Prop :=
  ∀ (c : RawCommand) (i : Instr),
    decode c = .instr i ↔ c.op = opOf i ∧ (c.op = 0b000#3 → c.din = dinOf i)

/-- 30_encoding.md R65 and 60_exceptions.md R144: the two reserved codes raise ILLEGAL_COMMAND whatever
DIN and VALID are; every other code is a command, so there is no hint, no-op or custom code; and
DIN changes nothing for any code but 0b000. -/
def Obligations.EncodingClasses : Prop :=
  (∀ (s : State) (op : BitVec 3) (din : BitVec 96) (rest : List PortEvent),
    s.fault = none → op = 0b110#3 ∨ op = 0b111#3 → s.port = .command ⟨op, din⟩ :: rest →
    step s = .next ({ s with port := rest }.withFault .illegalCommand)) ∧
  (∀ (op : BitVec 3) (din : BitVec 96), op ≠ 0b110#3 → op ≠ 0b111#3 →
    ∃ i, decode ⟨op, din⟩ = .instr i) ∧
  (∀ (s : State) (op : BitVec 3) (din din' : BitVec 96) (rest : List PortEvent), op ≠ 0b000#3 →
    step { s with port := .command ⟨op, din⟩ :: rest } =
      step { s with port := .command ⟨op, din'⟩ :: rest })

/-- The words of the opcode table, OP in the low bits, decode to their rows' instructions, the reserved
ones to none, and a step runs them. The layout of a command as one number and the place it is
presented at are the model's choices (log entries 3 and 4). -/
def Obligations.TableWordsDecodeAndRun : Prop :=
  decodeTableWord 8 0 = some (.construct #v[0, 0, 0, 0, 0, 0]) ∧
  decodeTableWord 8 1 = some .identifier ∧
  decodeTableWord 8 2 = some .direction ∧
  decodeTableWord 8 3 = some .operation ∧
  decodeTableWord 8 4 = some .authoritative ∧
  decodeTableWord 8 5 = some .truncated ∧
  decodeTableWord 8 6 = none ∧
  decodeTableWord 8 7 = none ∧
  ∀ (s : State) (nbits w : Nat) (i : Instr), s.fault = none → decodeTableWord nbits w = some i →
    step (s.withFetchWord nbits w) = exec i s

/-- The assembler of 30_encoding.md section 5 gives CONSTRUCT its six literals in index order, and
refuses it as soon as one lies outside 0..0xFFFF. -/
def Obligations.AssemblerRefusesWideLiterals : Prop :=
  ∀ a b c d e f : Nat,
    ((a ≤ 0xFFFF ∧ b ≤ 0xFFFF ∧ c ≤ 0xFFFF ∧ d ≤ 0xFFFF ∧ e ≤ 0xFFFF ∧ f ≤ 0xFFFF) →
      ∃ w, constructOperands [a, b, c, d, e, f] = some (.construct w) ∧
        w[0].toNat = a ∧ w[1].toNat = b ∧ w[2].toNat = c ∧ w[3].toNat = d ∧ w[4].toNat = e ∧
        w[5].toNat = f) ∧
    (0xFFFF < a ∨ 0xFFFF < b ∨ 0xFFFF < c ∨ 0xFFFF < d ∨ 0xFFFF < e ∨ 0xFFFF < f →
      constructOperands [a, b, c, d, e, f] = none)

/-! ### One step -/

/-- While FAULTED = 0, a step performs the command presented first: its instruction's `exec`, on the
state with the port moved past it. -/
def Obligations.StepRunsTheDecodedInstruction : Prop :=
  ∀ (s : State) (c : RawCommand) (rest : List PortEvent) (i : Instr),
    s.fault = none → s.port = .command c :: rest → decode c = .instr i →
    step s = exec i { s with port := rest }

/-- With nothing presented, the block "waits for the host's first command": a step changes nothing. That
such a step is a next state is the model's reading (log entry 6). -/
def Obligations.IdleBlockWaits : Prop :=
  ∀ s : State, s.fault = none → s.port = [] → step s = .next s

/-! ### CONSTRUCT -/

/-- 40_construct.md R80 and R81: CONSTRUCT stores the six words bit for bit, whatever they are, sets
VALID, leaves FAULTED and CAUSE, delivers no result and cannot fault; it is sent as OP = 0b000 with
`DIN = {w5, ..., w0}`, and it has no step while FAULTED = 1. -/
def Obligations.ConstructLoadsTheSixWords : Prop :=
  ∀ (w : Header) (s : State),
    decode ⟨0b000#3, w[5] ++ w[4] ++ w[3] ++ w[2] ++ w[1] ++ w[0]⟩ = .instr (.construct w) ∧
    (∀ c, s.fault = some c → exec (.construct w) s = .fault .stuck) ∧
    (s.fault = none → exec (.construct w) s = .next (s.withConstructed w)) ∧
    (∀ i : Fin 6, (s.withConstructed w).word i = some w[i]) ∧
    (s.withConstructed w).valid = 1#1 ∧ (s.withConstructed w).faulted = s.faulted ∧
    (s.withConstructed w).cause = s.cause ∧ (s.withConstructed w).resultPort = none

/-- 40_construct.md R82: a CONSTRUCT over a header replaces all of it; the next state is the one it has
from no header at all, so no word of the old header survives. -/
def Obligations.ConstructReplacesTheWholeHeader : Prop :=
  ∀ (s : State) (h w : Header), s.fault = none → s.hdr = some h →
    ∃ t, exec (.construct w) s = .next t ∧ t.hdr = some w ∧
      exec (.construct w) { s with hdr := none } = .next t

/-- CONSTRUCT's frame: every word is the one sent; FAULTED, CAUSE and what the host presents next stay,
and one response, carrying no result, is added. -/
def Obligations.ConstructFrame : Prop :=
  ∀ (w : Header) (s t : State), exec (.construct w) s = .next t →
    (∀ k : Fin 6, t.word k = some w[k]) ∧ t.fault = s.fault ∧ t.port = s.port ∧
    t.responses = s.responses ++ [.noResult]

/-! ### The accessors -/

/-- 41_identifier.md R90. -/
def Obligations.IdentifierReturnsWordZero : Prop :=
  ∀ s : State,
    (∀ din, decode ⟨0b001#3, din⟩ = .instr .identifier) ∧
    (∀ c, s.fault = some c → exec .identifier s = .fault .stuck) ∧
    (s.fault = none → s.hdr = none → exec .identifier s = .next (s.withFault .noHeader)) ∧
    (∀ h, s.fault = none → s.hdr = some h →
      exec .identifier s = .next (s.withResult (.identifier h[0])))

/-- 42_flags_decode.md R103: the pseudocode's value is bit 0, and bit 0 alone tells the variant. -/
def Obligations.DirectionDecodesQr : Prop :=
  ∀ s : State,
    (∀ din, decode ⟨0b010#3, din⟩ = .instr .direction) ∧
    (∀ c, s.fault = some c → exec .direction s = .fault .stuck) ∧
    (s.fault = none → s.hdr = none → exec .direction s = .next (s.withFault .noHeader)) ∧
    (∀ h, s.fault = none → s.hdr = some h →
      (h[1] &&& 0x0001#16) >>> 0 = (if h[1].getLsbD 0 then 1#16 else 0#16) ∧
      exec .direction s =
        .next (s.withResult (.direction (if h[1].getLsbD 0 then .RESPONSE else .REQUEST))))

/-- 42_flags_decode.md R104: the pseudocode's value is the number in bits 3:1, at most 7; 0, 1 and 2
have a variant each and 3 to 7 share RESERVED. -/
def Obligations.OperationDecodesOpcode : Prop :=
  ∀ s : State,
    (∀ din, decode ⟨0b011#3, din⟩ = .instr .operation) ∧
    (∀ c, s.fault = some c → exec .operation s = .fault .stuck) ∧
    (s.fault = none → s.hdr = none → exec .operation s = .next (s.withFault .noHeader)) ∧
    (∀ h, s.fault = none → s.hdr = some h →
      ∀ v : Nat, ((h[1] &&& 0x000E#16) >>> 1).toNat = v →
        v = (h[1].extractLsb' 1 3).toNat ∧ v ≤ 7 ∧
        (v = 0 → exec .operation s = .next (s.withResult (.operation .QUERY))) ∧
        (v = 1 → exec .operation s = .next (s.withResult (.operation .INVERSE_QUERY))) ∧
        (v = 2 → exec .operation s = .next (s.withResult (.operation .STATUS))) ∧
        (3 ≤ v → exec .operation s = .next (s.withResult (.operation .RESERVED))))

/-- 42_flags_decode.md R105: the pseudocode's value is bit 4, which tells the variant; a value outside 0
and 1 would raise INTERNAL_CONSISTENCY. -/
def Obligations.AuthoritativeDecodesAa : Prop :=
  ∀ s : State,
    (∀ din, decode ⟨0b100#3, din⟩ = .instr .authoritative) ∧
    (∀ c, s.fault = some c → exec .authoritative s = .fault .stuck) ∧
    (s.fault = none → s.hdr = none → exec .authoritative s = .next (s.withFault .noHeader)) ∧
    (∀ h, s.fault = none → s.hdr = some h →
      exec .authoritative s = finishAuthoritative ((h[1] &&& 0x0010#16) >>> 4) s ∧
      (h[1] &&& 0x0010#16) >>> 4 = (if h[1].getLsbD 4 then 1#16 else 0#16) ∧
      exec .authoritative s =
        .next (s.withResult (.authority (if h[1].getLsbD 4 then .HAVE else .NONE)))) ∧
    (∀ v : Word, v ≠ 0 → v ≠ 1 →
      finishAuthoritative v s = .next (s.withFault .internalConsistency))

/-- 42_flags_decode.md R106: the pseudocode's value is bit 5, which tells the variant; a value outside 0
and 1 would raise INTERNAL_CONSISTENCY. -/
def Obligations.TruncatedDecodesTc : Prop :=
  ∀ s : State,
    (∀ din, decode ⟨0b101#3, din⟩ = .instr .truncated) ∧
    (∀ c, s.fault = some c → exec .truncated s = .fault .stuck) ∧
    (s.fault = none → s.hdr = none → exec .truncated s = .next (s.withFault .noHeader)) ∧
    (∀ h, s.fault = none → s.hdr = some h →
      exec .truncated s = finishTruncated ((h[1] &&& 0x0020#16) >>> 5) s ∧
      (h[1] &&& 0x0020#16) >>> 5 = (if h[1].getLsbD 5 then 1#16 else 0#16) ∧
      exec .truncated s =
        .next (s.withResult (.truncation (if h[1].getLsbD 5 then .TRUNCATED else .FIT)))) ∧
    (∀ v : Word, v ≠ 0 → v ≠ 1 →
      finishTruncated v s = .next (s.withFault .internalConsistency))

/-- 20_memory.md R50: an accessor over a header delivers its result and changes nothing, so that doing it
again delivers the same result; its one fault writes only the fault state. -/
def Obligations.AccessorsArePureAndIdempotent : Prop :=
  ∀ (i : Instr) (s : State), i.isAccessor = true → s.fault = none →
    (∀ h, s.hdr = some h →
      ∃ r, exec i s = .next (s.withResult r) ∧
        exec i (s.withResult r) = .next ((s.withResult r).withResult r)) ∧
    (s.hdr = none → exec i s = .next (s.withFault .noHeader))

/-- The accessors' frame: no word, VALID, nor what the host presents next changes; one response is added;
over a header FAULTED and CAUSE stay, and with no header the fault is NO_HEADER. -/
def Obligations.AccessorFrame : Prop :=
  ∀ (i : Instr) (s t : State), i.isAccessor = true → exec i s = .next t →
    (∀ k : Fin 6, t.word k = s.word k) ∧ t.valid = s.valid ∧ t.port = s.port ∧
    (∃ r, t.responses = s.responses ++ [r]) ∧
    (∀ h, s.hdr = some h → t.fault = s.fault) ∧
    (s.hdr = none → t.fault = some .noHeader)

/-- 20_memory.md R41: each command reaches only its words. CONSTRUCT reads none (its next state does not
depend on the header) and writes all six; IDENTIFIER's result depends on HW[0] alone, a flag
accessor's on HW[1] alone, and no accessor writes. -/
def Obligations.EachCommandReachesOnlyItsWords : Prop :=
  (∀ (w : Header) (s : State) (x : Option Header), s.fault = none →
    ∃ t, exec (.construct w) s = .next t ∧ exec (.construct w) { s with hdr := x } = .next t ∧
      ∀ k : Fin 6, t.word k = some w[k]) ∧
  (∀ (s : State) (h h' : Header), s.fault = none → h[0] = h'[0] →
    ∃ r, exec .identifier { s with hdr := some h } = .next ({ s with hdr := some h }.withResult r) ∧
      exec .identifier { s with hdr := some h' } = .next ({ s with hdr := some h' }.withResult r)) ∧
  (∀ (i : Instr) (s : State) (h h' : Header), i.isAccessor = true → i ≠ .identifier →
    s.fault = none → h[1] = h'[1] →
    ∃ r, exec i { s with hdr := some h } = .next ({ s with hdr := some h }.withResult r) ∧
      exec i { s with hdr := some h' } = .next ({ s with hdr := some h' }.withResult r))

/-- 42_flags_decode.md section 2, where the spec marks the rule as derived: "Each flag accessor depends
only on its own field's bits". Two headers that agree on the field's bits, and on nothing else, give
the same result. -/
def Obligations.FlagAccessorsReadOnlyTheirField : Prop :=
  ∀ (s s' : State) (h h' : Header), s.fault = none → s'.fault = none → s.hdr = some h →
    s'.hdr = some h' →
    (h[1].getLsbD 0 = h'[1].getLsbD 0 →
      ∃ r, exec .direction s = .next (s.withResult r) ∧
        exec .direction s' = .next (s'.withResult r)) ∧
    (h[1].extractLsb' 1 3 = h'[1].extractLsb' 1 3 →
      ∃ r, exec .operation s = .next (s.withResult r) ∧
        exec .operation s' = .next (s'.withResult r)) ∧
    (h[1].getLsbD 4 = h'[1].getLsbD 4 →
      ∃ r, exec .authoritative s = .next (s.withResult r) ∧
        exec .authoritative s' = .next (s'.withResult r)) ∧
    (h[1].getLsbD 5 = h'[1].getLsbD 5 →
      ∃ r, exec .truncated s = .next (s.withResult r) ∧
        exec .truncated s' = .next (s'.withResult r))

/-- 42_flags_decode.md section 1, where the spec marks the rule as derived: for a field of width `n` at
bit `b`, the mask-and-shift unit answers the slice `w[b+n-1 : b]`, which is below 2^n. -/
def Obligations.ExtractAnswersTheFieldSlice : Prop :=
  ∀ (w : Word) (n b : Nat), b + n ≤ 16 →
    extract w (BitVec.ofNat 16 ((2 ^ n - 1) * 2 ^ b)) b = (w.extractLsb' b n).setWidth 16 ∧
    (extract w (BitVec.ofNat 16 ((2 ^ n - 1) * 2 ^ b)) b).toNat < 2 ^ n

/-- 30_encoding.md R67 and R68: what the RESULT port carries after each command, the variants' codes
included. -/
def Obligations.ResultPortCarriesTheCode : Prop :=
  (Direction.code .REQUEST = 0 ∧ Direction.code .RESPONSE = 1 ∧
    Operation.code .QUERY = 0 ∧ Operation.code .INVERSE_QUERY = 1 ∧ Operation.code .STATUS = 2 ∧
    Operation.code .RESERVED = 3 ∧ Authority.code .NONE = 0 ∧ Authority.code .HAVE = 1 ∧
    Truncation.code .FIT = 0 ∧ Truncation.code .TRUNCATED = 1) ∧
  (∀ (s : State) (w : Header), s.fault = none →
    ∃ t, exec (.construct w) s = .next t ∧ t.resultPort = none) ∧
  (∀ (s : State) (h : Header), s.fault = none → s.hdr = some h →
    (∃ t, exec .identifier s = .next t ∧ t.resultPort = some h[0]) ∧
    (∃ t d, exec .direction s = .next t ∧ d.code = (h[1].extractLsb' 0 1).setWidth 16 ∧
      t.responses = s.responses ++ [.result (.direction d)] ∧ t.resultPort = some d.code) ∧
    (∃ t o, exec .operation s = .next t ∧
      o.code.toNat = min (h[1].extractLsb' 1 3).toNat 3 ∧
      t.responses = s.responses ++ [.result (.operation o)] ∧ t.resultPort = some o.code) ∧
    (∃ t a, exec .authoritative s = .next t ∧ a.code = (h[1].extractLsb' 4 1).setWidth 16 ∧
      t.responses = s.responses ++ [.result (.authority a)] ∧ t.resultPort = some a.code) ∧
    (∃ t u, exec .truncated s = .next t ∧ u.code = (h[1].extractLsb' 5 1).setWidth 16 ∧
      t.responses = s.responses ++ [.result (.truncation u)] ∧ t.resultPort = some u.code))

/-! ### Faults -/

/-- 60_exceptions.md R145: fault entry sets FAULTED and CAUSE, leaves every word and VALID, and delivers
no result. -/
def Obligations.FaultEntryRecordsOnlyTheCause : Prop :=
  ∀ (c : Cause) (s : State), s.fault = none →
    ∃ t, raise c s = .next t ∧ t.faulted = 1#1 ∧ t.cause = c.code ∧
      (∀ k : Fin 6, t.word k = s.word k) ∧ t.valid = s.valid ∧ t.port = s.port ∧
      t.responses = s.responses ++ [.fault c] ∧ t.resultPort = none

/-- 60_exceptions.md R141 and R143: the three causes with their codes, who raises each and when, and
that an instruction raises no other; CONSTRUCT raises none. -/
def Obligations.CausesAreRaisedAsListed : Prop :=
  (Cause.code .illegalCommand = 0b01#2 ∧ Cause.code .noHeader = 0b10#2 ∧
    Cause.code .internalConsistency = 0b11#2) ∧
  (∀ (op : BitVec 3) (din : BitVec 96) (s : State), op = 0b110#3 ∨ op = 0b111#3 → s.fault = none →
    perform (decode ⟨op, din⟩) s = .next (s.withFault .illegalCommand)) ∧
  (∀ (i : Instr) (s : State), i.isAccessor = true → s.fault = none → s.hdr = none →
    exec i s = .next (s.withFault .noHeader)) ∧
  (∀ (v : Word) (s : State), v ≠ 0 → v ≠ 1 →
    finishAuthoritative v s = .next (s.withFault .internalConsistency) ∧
    finishTruncated v s = .next (s.withFault .internalConsistency)) ∧
  (∀ (i : Instr) (s t : State) (c : Cause), exec i s = .next t → t.fault = some c →
    (c = .noHeader ∧ i.isAccessor = true ∧ s.hdr = none ∨
      c = .internalConsistency ∧ (i = .authoritative ∨ i = .truncated)) ∧
    t = s.withFault c)

/-- 60_exceptions.md R142: AUTHORITATIVE and TRUNCATED raise INTERNAL_CONSISTENCY exactly on an extracted
value outside 0 and 1; with the constants of the spec no command of any state raises it. -/
def Obligations.InternalConsistencyIsNeverRaised : Prop :=
  (∀ (v : Word) (s : State),
    (finishAuthoritative v s = .next (s.withFault .internalConsistency) ↔ v ≠ 0 ∧ v ≠ 1) ∧
    (finishTruncated v s = .next (s.withFault .internalConsistency) ↔ v ≠ 0 ∧ v ≠ 1)) ∧
  (∀ w : Word, ((w &&& 0x0010#16) >>> 4 = 0 ∨ (w &&& 0x0010#16) >>> 4 = 1) ∧
    ((w &&& 0x0020#16) >>> 5 = 0 ∨ (w &&& 0x0020#16) >>> 5 = 1)) ∧
  (∀ (c : RawCommand) (s t : State), perform (decode c) s = .next t →
    t.fault ≠ some .internalConsistency)

/-- 60_exceptions.md R147: a command's checks, in their order, each the only one taken. -/
def Obligations.ChecksAreMadeInOrder : Prop :=
  ∀ (c : RawCommand) (s : State),
    (∀ k, s.fault = some k → perform (decode c) s = .fault .stuck) ∧
    (s.fault = none → c.op = 0b110#3 ∨ c.op = 0b111#3 →
      perform (decode c) s = .next (s.withFault .illegalCommand)) ∧
    (s.fault = none → 1 ≤ c.op.toNat → c.op.toNat ≤ 5 → s.hdr = none →
      perform (decode c) s = .next (s.withFault .noHeader)) ∧
    (∀ h, s.fault = none → s.hdr = some h → c.op = 0b100#3 →
      perform (decode c) s = finishAuthoritative ((h[1] &&& 0x0010#16) >>> 4) s) ∧
    (∀ h, s.fault = none → s.hdr = some h → c.op = 0b101#3 →
      perform (decode c) s = finishTruncated ((h[1] &&& 0x0020#16) >>> 5) s) ∧
    (∀ v : Word, v ≠ 0 → v ≠ 1 →
      finishAuthoritative v s = .next (s.withFault .internalConsistency) ∧
      finishTruncated v s = .next (s.withFault .internalConsistency)) ∧
    (∀ h, s.fault = none → s.hdr = some h → 1 ≤ c.op.toNat → c.op.toNat ≤ 5 →
      ∃ r, perform (decode c) s = .next (s.withResult r)) ∧
    (s.fault = none → c.op = 0b000#3 →
      perform (decode c) s = .next (s.withConstructed (wordsOfDin c.din)))

/-- 60_exceptions.md R146 and 40_construct.md R83: while FAULTED = 1 no command has a step, CONSTRUCT
and the reserved codes included; reset is still taken; STATUS still shows the fault; and the end of
a run in such a state is no good end. -/
def Obligations.FaultedBlockIsStuckUntilReset : Prop :=
  ∀ (s : State) (k : Cause), s.fault = some k →
    (∀ i, exec i s = .fault .stuck) ∧
    (∀ c, perform (decode c) s = .fault .stuck) ∧
    (∀ c rest, s.port = .command c :: rest → (∀ e ∈ rest, e ≠ .reset) → step s = .fault .stuck) ∧
    (∀ rest, s.port = .reset :: rest →
      ∃ t, step s = .next t ∧ t.hdr = none ∧ t.fault = none ∧ t.port = rest) ∧
    (s.status.extractLsb' 1 1 = 1#1 ∧ s.status.extractLsb' 2 2 = k.code) ∧
    (∀ es, endState es = s → ¬ EndsWell es)

/-- A reset presented behind commands that a faulted block does not accept is taken, those commands
leaving no trace. That they are lost is the model's reading (log entry 5), and that what was delivered
before the reset stays delivered is the model's choice (log entry 2). -/
def Obligations.ResetIsTakenPastUnacceptedCommands : Prop :=
  ∀ (s : State) (k : Cause) (cs : List RawCommand) (rest : List PortEvent), s.fault = some k →
    s.port = cs.map .command ++ .reset :: rest →
    step s = .next { hdr := none, fault := none, port := rest, responses := s.responses }

/-! ### Reset and STATUS -/

/-- 10_state.md section 4: the reset column. The port and the responses are the model's own (log entries
1 and 2), and nothing is said of them. -/
def Obligations.ResetStateHoldsNoHeader : Prop :=
  State.reset.hdr = none ∧ State.reset.fault = none ∧ (∀ i : Fin 6, State.reset.word i = none) ∧
  State.reset.valid = 0#1 ∧ State.reset.faulted = 0#1 ∧ State.reset.cause = 0b00#2 ∧
  State.reset.status = 0x0#4

/-- 70_reset_and_hazards.md R170: reset is taken in every state, faulted or not; STATUS is then 0x0, no
word can be read, and every accessor faults NO_HEADER. -/
def Obligations.ResetIsTakenInEveryState : Prop :=
  ∀ (s : State) (rest : List PortEvent), s.port = .reset :: rest →
    ∃ t, step s = .next t ∧ t.hdr = none ∧ t.fault = none ∧ t.status = 0x0#4 ∧
      (∀ i : Fin 6, t.word i = none) ∧ t.port = rest ∧
      (∀ i : Instr, i.isAccessor = true → exec i t = .next (t.withFault .noHeader))

/-- 70_reset_and_hazards.md R171: a step that clears or changes a recorded fault, or clears VALID, takes
a reset. -/
def Obligations.OnlyResetClearsFaultAndValid : Prop :=
  ∀ s t : State, step s = .next t →
    (∃ c, s.fault = some c ∧ t.fault ≠ some c) ∨ (∃ h, s.hdr = some h ∧ t.hdr = none) →
    ∃ s', takeEvent s = some (.reset, s') ∧ PortEvent.reset ∈ s.port ∧ t.hdr = none ∧ t.fault = none

/-- 10_state.md R29: STATUS bit by bit, its reset value, and that it changes only by CONSTRUCT, by a
fault and by reset. -/
def Obligations.StatusIsAViewOfTheEnvelope : Prop :=
  State.reset.status = 0x0#4 ∧
  ∀ s : State,
    s.status.getLsbD 0 = s.hdr.isSome ∧ s.status.getLsbD 1 = s.fault.isSome ∧
    (s.fault = none → s.status.extractLsb' 2 2 = 0b00#2) ∧
    (∀ c, s.fault = some c →
      s.status.extractLsb' 2 2 = c.code ∧ s.status.extractLsb' 2 2 ≠ 0b00#2) ∧
    (∀ t, step s = .next t → t.status ≠ s.status →
      (∃ din rest, s.port = .command ⟨0b000#3, din⟩ :: rest ∧ s.fault = none ∧
        t.hdr = some (wordsOfDin din)) ∨
      (s.fault = none ∧ ∃ c, t.fault = some c) ∨
      (∃ s', takeEvent s = some (.reset, s')))

/-- 10_state.md R24: only CONSTRUCT writes the header words, all six together; the one other way they
change is reset, after which there are none. -/
def Obligations.OnlyConstructWritesTheHeader : Prop :=
  ∀ s t : State, step s = .next t → t.hdr ≠ s.hdr →
    (∃ din rest w, s.port = .command ⟨0b000#3, din⟩ :: rest ∧ s.fault = none ∧ t.hdr = some w ∧
      ∀ k : Fin 6, w[k] = din.extractLsb' (16 * k.val) 16) ∨
    (∃ s', takeEvent s = some (.reset, s') ∧ t.hdr = none)

/-! ### Invariant -/

/-- Every step keeps the invariant: STATUS stays one of 0x0, 0x1, 0x6, 0x7 and 0xA, and a fault is the
last response. From every state that meets it, not only from those a run reaches. -/
def Obligations.EveryStepKeepsTheStatusInvariant : Prop :=
  ∀ s t : State, s.Inv → step s = .next t → t.Inv

/-- The invariant holds after reset. -/
def Obligations.ResetMeetsTheStatusInvariant : Prop := State.reset.Inv

/-! ### Streams, merges and runs -/

/-- 20_memory.md section 4 (the ordering model) over 42_flags_decode.md section 2, whose closed form of
the results the spec marks as derived: over any command stream, from any state with FAULTED = 0, each
command responds with the closed form over the words of the most recent CONSTRUCT before it; from no
header the same holds once a CONSTRUCT comes first, and an accessor with none before it faults
NO_HEADER. -/
def Obligations.StreamSeesTheMostRecentConstruct : Prop :=
  ∀ (s : State) (cs : List RawCommand) (is : List Instr) (rest : List PortEvent), s.fault = none →
    cs.map decode = is.map .instr → s.port = cs.map .command ++ rest →
    (∀ h, s.hdr = some h →
      ∃ t, Host.Core.run core cs.length s = .next t ∧ t.hdr = some (streamHeader h is) ∧
        t.fault = none ∧ t.port = rest ∧
        t.responses = s.responses ++ streamResponses h is) ∧
    (∀ w is', s.hdr = none → is = .construct w :: is' →
      ∃ t, Host.Core.run core cs.length s = .next t ∧ t.hdr = some (streamHeader w is') ∧
        t.fault = none ∧ t.port = rest ∧
        t.responses = s.responses ++ .noResult :: streamResponses w is') ∧
    (∀ i is', s.hdr = none → is = i :: is' → i.isAccessor = true →
      ∃ t, step s = .next t ∧ t.hdr = none ∧ t.fault = some .noHeader ∧
        t.responses = s.responses ++ [.fault .noHeader])

/-- 41_identifier.md R91, which the spec marks as derived: after a CONSTRUCT, and any accessors,
IDENTIFIER returns exactly the word 0 that was sent. -/
def Obligations.IdentifierIsTheConstructedWordZero : Prop :=
  ∀ (s : State) (w : Header) (is : List Instr), s.fault = none →
    (∀ i ∈ is, i.isAccessor = true) →
    s.port = (Instr.construct w :: is ++ [Instr.identifier]).map PortEvent.ofInstr →
    ∃ t, Host.Core.run core (is.length + 2) s = .next t ∧ t.fault = none ∧
      t.responses.getLast? = some (.result (.identifier w[0]))

/-- 20_memory.md section 4, where the spec marks the rule as derived: two callers' accessors, merged in
any order, each get their own results over the stored header, in their own order. -/
def Obligations.EveryMergeGivesEachCallerItsResults : Prop :=
  ∀ (s : State) (h : Header) (xs ys zs : List Instr) (rest : List PortEvent), s.fault = none →
    s.hdr = some h → (∀ i ∈ zs, i.isAccessor = true) → Interleaves xs ys zs →
    s.port = zs.map PortEvent.ofInstr ++ rest →
    ∃ t rs, Host.Core.run core zs.length s = .next t ∧ t.hdr = some h ∧ t.fault = none ∧
      t.port = rest ∧ t.responses = s.responses ++ rs ∧
      rs = zs.map (fun i => specResponse i h) ∧
      Interleaves (xs.map fun i => specResponse i h) (ys.map fun i => specResponse i h) rs

/-- 70_reset_and_hazards.md sections 2 and 5, whose boot rules the spec marks as derived, over
60_exceptions.md (what faults, and that a fault stays) and 42_flags_decode.md section 2 (that nothing
else does, also marked as derived): a run of commands from reset ends well exactly when it presents no
reserved code and its first command, if it has one, is CONSTRUCT. -/
def Obligations.RunEndsWellExactlyWhenConstructComesFirst : Prop :=
  ∀ cs : List RawCommand,
    EndsWell (cs.map .command) ↔
      (∀ c ∈ cs, c.op ≠ 0b110#3 ∧ c.op ≠ 0b111#3) ∧
      (∀ c rest, cs = c :: rest → c.op = 0b000#3)

/-- 70_reset_and_hazards.md section 5, over 20_memory.md section 4 (the most recent CONSTRUCT) and
42_flags_decode.md section 2 (the closed form, which the spec marks as derived): the observation of a
run that constructs first is one result per accessor, in order, and the header of the last
CONSTRUCT. -/
def Obligations.RunObservesOneResultPerAccessor : Prop :=
  ∀ (w : Header) (is : List Instr),
    EndsWell ((Instr.construct w :: is).map PortEvent.ofInstr) ∧
    (endState ((Instr.construct w :: is).map PortEvent.ofInstr)).hdr = some (streamHeader w is) ∧
    (endState ((Instr.construct w :: is).map PortEvent.ofInstr)).results.map Response.result =
      (streamResponses w is).filter (· ≠ .noResult) ∧
    (endState ((Instr.construct w :: is).map PortEvent.ofInstr)).results.length =
      (is.filter Instr.isAccessor).length

/-- 70_reset_and_hazards.md section 5: a run's end state is "the state after the last accepted command", so
resets presented after the last command change nothing of it: not whether the run ends well, its
observation, the fault it ends with, or the header. Where commands not accepted stand before such a
reset, it rests on the model's reading that they are lost (log entry 5, from 95_test_vectors.md P3);
where no command is accepted, on the model's reading that the run ends in the reset state (log entry
13). -/
def Obligations.ResetsAfterTheLastCommandAreNoPartOfTheRun : Prop :=
  ∀ (es rs : List PortEvent), (∀ e ∈ rs, e = .reset) →
    (EndsWell (es ++ rs) ↔ EndsWell es) ∧ runObservation (es ++ rs) = runObservation es ∧
    (endState (es ++ rs)).fault = (endState es).fault ∧
    (endState (es ++ rs)).hdr = (endState es).hdr

/-- 70_reset_and_hazards.md sections 1 and 5: a run that goes on after a reset ends with the header and
the fault of the run that presents only what follows the reset, whatever came before, an unaccepted
command and a fault included. That commands not accepted before the reset are lost is the model's
reading (log entry 5). -/
def Obligations.RunAfterResetEndsAsIfItBeganThere : Prop :=
  ∀ (es fs : List PortEvent) (c : RawCommand), PortEvent.command c ∈ fs →
    (endState (es ++ .reset :: fs)).hdr = (endState fs).hdr ∧
    (endState (es ++ .reset :: fs)).fault = (endState fs).fault ∧
    (EndsWell (es ++ .reset :: fs) ↔ EndsWell fs)

/-- 20_memory.md R44: whatever the open WORD_OF_BYTES is, the words it gives are the words HDRDEC then
holds. The form of the host's command is the model's (log entry 9). -/
def Obligations.MessageBytesReachHdrdecAsWords : Prop :=
  ∀ (bytes : List Byte) (s : State), s.fault = none →
    match Config.wordOfBytes bytes with
    | none => constructOfBytes bytes = none
    | some w => ∃ e t, constructOfBytes bytes = some e ∧ step (s.present e) = .next t ∧
        t.hdr = some w
end

