-- ==== Sys2Proof/Laws/Decode.lean ====
section
/-! SUPPORT. What the decoder answers, by the class of the code (30_encoding.md R65). -/

namespace Sys2Proof

/-- A code of the opcode table decodes to an instruction with that code. -/
theorem decode_of_wf {c : RawCommand} (h : c.wf = true) :
    ∃ i, decode c = .instr i ∧ opOf i = c.op := by
  unfold decode
  split <;> rename_i hop <;> rw [hop]
  all_goals first
    | exact ⟨_, rfl, rfl⟩
    | (rw [RawCommand.wf, hop] at h; cases h)

/-- A reserved code decodes to itself. -/
theorem decode_of_reserved {c : RawCommand} (h : reservedOp c.op = true) :
    decode c = .illegal c.op := by
  unfold decode
  split <;> rename_i hop <;> rw [hop] at h ⊢ <;> cases h

/-- Only a code of the opcode table decodes to an instruction, and to one with that code. -/
theorem decode_instr {c : RawCommand} {i : Instr} (h : decode c = .instr i) :
    c.wf = true ∧ opOf i = c.op := by
  cases hr : reservedOp c.op with
  | true => rw [decode_of_reserved hr] at h; cases h
  | false =>
    have hw : c.wf = true := by simp [RawCommand.wf, hr]
    obtain ⟨j, hj, ho⟩ := decode_of_wf hw
    rw [hj] at h
    cases h
    exact ⟨hw, ho⟩

/-- Only a reserved code decodes to `illegal`. -/
theorem decode_illegal {c : RawCommand} {op : BitVec 3} (h : decode c = .illegal op) :
    reservedOp c.op = true ∧ op = c.op := by
  cases hr : reservedOp c.op with
  | true => rw [decode_of_reserved hr] at h; cases h; exact ⟨rfl, rfl⟩
  | false =>
    obtain ⟨j, hj, -⟩ := decode_of_wf (c := c) (by simp [RawCommand.wf, hr])
    rw [hj] at h
    cases h

end Sys2Proof
end

