-- ==== Sys2Proof/Laws/State.lean ====
section
/-! SUPPORT. One lemma per field per update of the state. -/

namespace Sys2Proof.Machine

@[simp] theorem State.load_hdr (s : State) (w : Header) : (s.load w).hdr = some w := rfl
@[simp] theorem State.load_fault (s : State) (w : Header) : (s.load w).fault = s.fault := rfl
@[simp] theorem State.load_port (s : State) (w : Header) : (s.load w).port = s.port := rfl
@[simp] theorem State.load_responses (s : State) (w : Header) : (s.load w).responses = s.responses := rfl

@[simp] theorem State.enterFault_hdr (s : State) (c : Cause) : (s.enterFault c).hdr = s.hdr := rfl
@[simp] theorem State.enterFault_fault (s : State) (c : Cause) : (s.enterFault c).fault = some c := rfl
@[simp] theorem State.enterFault_port (s : State) (c : Cause) : (s.enterFault c).port = s.port := rfl
@[simp] theorem State.enterFault_responses (s : State) (c : Cause) : (s.enterFault c).responses = s.responses := rfl

@[simp] theorem State.respond_hdr (s : State) (r : Response) : (s.respond r).hdr = s.hdr := rfl
@[simp] theorem State.respond_fault (s : State) (r : Response) : (s.respond r).fault = s.fault := rfl
@[simp] theorem State.respond_port (s : State) (r : Response) : (s.respond r).port = s.port := rfl
@[simp] theorem State.respond_responses (s : State) (r : Response) : (s.respond r).responses = s.responses ++ [r] := rfl

@[simp] theorem State.setPort_hdr (s : State) (es : List PortEvent) : (s.setPort es).hdr = s.hdr := rfl
@[simp] theorem State.setPort_fault (s : State) (es : List PortEvent) : (s.setPort es).fault = s.fault := rfl
@[simp] theorem State.setPort_port (s : State) (es : List PortEvent) : (s.setPort es).port = es := rfl
@[simp] theorem State.setPort_responses (s : State) (es : List PortEvent) : (s.setPort es).responses = s.responses := rfl

@[simp] theorem State.takeReset_hdr (s : State) : (s.takeReset).hdr = none := rfl
@[simp] theorem State.takeReset_fault (s : State) : (s.takeReset).fault = none := rfl
@[simp] theorem State.takeReset_port (s : State) : (s.takeReset).port = s.port := rfl
@[simp] theorem State.takeReset_responses (s : State) : (s.takeReset).responses = s.responses := rfl

@[simp] theorem State.reset_hdr : State.reset.hdr = none := rfl
@[simp] theorem State.reset_fault : State.reset.fault = none := rfl
@[simp] theorem State.reset_port : State.reset.port = [] := rfl
@[simp] theorem State.reset_responses : State.reset.responses = [] := rfl

/-- Two states with the same four fields are the same state. -/
theorem State.eq_of_fields {s t : State} (hh : s.hdr = t.hdr) (hf : s.fault = t.fault)
    (hp : s.port = t.port) (hr : s.responses = t.responses) : s = t := by
  cases s; cases t; simp_all

end Sys2Proof.Machine
end

