-- ==== Sys2Proof/Laws/Ops.lean ====
section
/-! SUPPORT. What each shared operation can do, said once. -/

namespace Sys2Proof.Machine

theorem accept_of_unfaulted {k : State → Outcome} {s : State} (h : s.fault = none) :
    accept k s = k s := by
  simp [accept, h]

theorem accept_of_faulted {k : State → Outcome} {s : State} {c : Cause} (h : s.fault = some c) :
    accept k s = .fault .stuck := by
  simp [accept, h]

/-- A command that has a next state was accepted: FAULTED was 0. -/
theorem accept_next {k : State → Outcome} {s t : State} (h : accept k s = .next t) :
    s.fault = none ∧ k s = .next t := by
  cases hf : s.fault with
  | none => exact ⟨rfl, by rwa [accept_of_unfaulted hf] at h⟩
  | some c => rw [accept_of_faulted hf] at h; cases h

theorem withHeader_none {k : Header → State → Outcome} {s : State} (h : s.hdr = none) :
    withHeader k s = raise .noHeader s := by
  simp [withHeader, h]

theorem withHeader_some {k : Header → State → Outcome} {s : State} {w : Header}
    (h : s.hdr = some w) : withHeader k s = k w s := by
  simp [withHeader, h]

theorem raise_next {c : Cause} {s t : State} (h : raise c s = .next t) :
    t = (s.enterFault c).respond (.fault c) := by
  cases h; rfl

theorem deliver_next {r : Result} {s t : State} (h : deliver r s = .next t) :
    t = s.respond (.result r) := by
  cases h; rfl

/-- STATUS by cases: the six values of its fields (10_state.md R29). -/
theorem State.status_eq (s : State) :
    s.status =
      match s.fault, s.hdr with
      | none, none => 0x0#4
      | none, some _ => 0x1#4
      | some .illegalCommand, none => 0x6#4
      | some .illegalCommand, some _ => 0x7#4
      | some .noHeader, none => 0xA#4
      | some .noHeader, some _ => 0xB#4
      | some .internalConsistency, none => 0xE#4
      | some .internalConsistency, some _ => 0xF#4 := by
  obtain ⟨hdr, fault, port, responses⟩ := s
  rcases hdr with _ | h <;> rcases fault with _ | _ | _ | _ <;>
    simp [State.status, State.cause, State.faulted, State.valid, Cause.code]

end Sys2Proof.Machine
end

