-- ==== Sys2Proof/Laws/Flags.lean ====
section
/-! SUPPORT. What the datapath gives each flag accessor: the field's bits (42_flags_decode.md R102). -/

namespace Sys2Proof.Machine

/-- Bit `i` of what the mask-and-shift unit answers. -/
theorem extract_getElem (w mask : Word) (sh i : Nat) (hi : i < 16) :
    (extract w mask sh)[i] = (w.getLsbD (sh + i) && mask.getLsbD (sh + i)) := by
  simp [extract, BitVec.getElem_ushiftRight, BitVec.getLsbD_and]

/-- A bit of a literal mask is 1 at `k` only. -/
theorem oneBit_getLsbD (k j : Nat) (hk : k < 16) :
    (BitVec.ofNat 16 (2 ^ k)).getLsbD j = decide (j = k) := by
  rw [BitVec.getLsbD_ofNat, Nat.testBit_two_pow]
  rw [Bool.eq_iff_iff, Bool.and_eq_true, decide_eq_true_iff, decide_eq_true_iff,
    decide_eq_true_iff]
  omega

/-- A one-bit field's value is its bit. -/
theorem extract_oneBit (w : Word) (k : Nat) (hk : k < 16) :
    extract w (BitVec.ofNat 16 (2 ^ k)) k = if w.getLsbD k then 1#16 else 0#16 := by
  ext i hi
  rw [extract_getElem _ _ _ _ hi, oneBit_getLsbD k _ hk]
  cases hb : w.getLsbD k
  · rcases i with _ | i <;> simp [hb]
  · rcases i with _ | i
    · simp [hb]
    · simp [BitVec.getElem_one]

/-- OPCODE's value is the bits 3:1. -/
theorem extract_opcode (w : Word) : (extract w 0x000E#16 1).setWidth 3 = w.extractLsb' 1 3 := by
  ext i hi
  have hm : ∀ j, j < 3 → (0x000E#16).getLsbD (1 + j) = true := by decide
  rw [BitVec.getElem_setWidth, BitVec.getElem_extractLsb', BitVec.getLsbD_eq_getElem (by omega),
    extract_getElem _ _ _ _ (by omega), hm i hi, Bool.and_true]

/-- OPERATION's eight cases, as the closed form of R108. -/
theorem operationOf_eq (v : BitVec 3) :
    operationOf v =
      if v = 0 then .QUERY else if v = 1 then .INVERSE_QUERY else if v = 2 then .STATUS
      else .RESERVED := by
  revert v; decide

theorem rowDirection_value (h : Header) :
    rowDirection.value h = if h[1].getLsbD 0 then 1#16 else 0#16 :=
  extract_oneBit h[1] 0 (by omega)

theorem rowOperation_value (h : Header) :
    (rowOperation.value h).setWidth 3 = h[1].extractLsb' 1 3 :=
  extract_opcode h[1]

theorem rowAuthoritative_value (h : Header) :
    rowAuthoritative.value h = if h[1].getLsbD 4 then 1#16 else 0#16 :=
  extract_oneBit h[1] 4 (by omega)

theorem rowTruncated_value (h : Header) :
    rowTruncated.value h = if h[1].getLsbD 5 then 1#16 else 0#16 :=
  extract_oneBit h[1] 5 (by omega)

/-- IDENTIFIER's row, put through the mask-and-shift unit, is the identity on word 0
(30_encoding.md R63), so that IDENTIFIER needs no masking (41_identifier.md R90). -/
theorem rowIdentifier_value (h : Header) : rowIdentifier.value h = mux rowIdentifier h := by
  have hm : ∀ i, i < 16 → (0xFFFF#16).getLsbD i = true := by decide
  ext i hi
  change (extract (mux rowIdentifier h) 0xFFFF#16 0)[i] = _
  rw [extract_getElem _ _ _ _ hi, Nat.zero_add, hm i hi, Bool.and_true,
    BitVec.getLsbD_eq_getElem hi]

/-- Each row's value lies in its width (30_encoding.md R63, 42_flags_decode.md R102). -/
theorem row_value_lt (h : Header) :
    ∀ r ∈ [rowIdentifier, rowDirection, rowOperation, rowAuthoritative, rowTruncated],
      (r.value h).toNat < 2 ^ r.width := by
  have oneBit : ∀ b : Bool, (if b then 1#16 else 0#16).toNat < 2 ^ 1 := by decide
  have opcode : (rowOperation.value h).toNat < 2 ^ 3 := by
    change ((h[1] &&& 0x000E#16) >>> 1).toNat < 8
    rw [BitVec.toNat_ushiftRight, BitVec.toNat_and]
    have : h[1].toNat &&& (0x000E#16).toNat ≤ 14 := Nat.and_le_right
    omega
  simp only [List.forall_mem_cons, List.not_mem_nil, false_imp_iff, implies_true, and_true]
  exact ⟨(rowIdentifier.value h).isLt, rowDirection_value h ▸ oneBit _, opcode,
    rowAuthoritative_value h ▸ oneBit _, rowTruncated_value h ▸ oneBit _⟩

/-- QR's variant is told by bit 0. -/
theorem directionOf_value (h : Header) :
    directionOf ((rowDirection.value h).setWidth 1) =
      if h[1].getLsbD 0 then .RESPONSE else .REQUEST := by
  rw [rowDirection_value]; split <;> rfl

/-- A value outside 0 and 1 has no AA variant, and only such a value has none. -/
theorem authorityOf_eq_none {v : Word} : authorityOf v = none ↔ v ≠ 0 ∧ v ≠ 1 := by
  unfold authorityOf
  split
  · simp
  · simp
  · rename_i h0 h1; simpa using ⟨h0, h1⟩

/-- A value outside 0 and 1 has no TC variant, and only such a value has none. -/
theorem truncationOf_eq_none {v : Word} : truncationOf v = none ↔ v ≠ 0 ∧ v ≠ 1 := by
  unfold truncationOf
  split
  · simp
  · simp
  · rename_i h0 h1; simpa using ⟨h0, h1⟩

/-- The AA variant of the datapath's value: bit 4. -/
theorem authorityOf_value (h : Header) :
    authorityOf (rowAuthoritative.value h) = some (if h[1].getLsbD 4 then .HAVE else .NONE) := by
  rw [rowAuthoritative_value]; split <;> rfl

/-- The TC variant of the datapath's value: bit 5. -/
theorem truncationOf_value (h : Header) :
    truncationOf (rowTruncated.value h) = some (if h[1].getLsbD 5 then .TRUNCATED else .FIT) := by
  rw [rowTruncated_value]; split <;> rfl

end Sys2Proof.Machine
end

