-- ==== Sys2Proof/Laws/Exec.lean ====
section
/-! SUPPORT. One spec lemma per meaning, and everything `exec` can do, said once. -/

namespace Sys2Proof.Machine

section
variable {s t : State} {h : Header}

theorem execConstruct_accepted (w : Header) (hf : s.fault = none) :
    execConstruct w s = .next ((s.load w).respond .noResult) := by
  rw [execConstruct, accept_of_unfaulted hf]

theorem execIdentifier_noHeader (hf : s.fault = none) (hh : s.hdr = none) :
    execIdentifier s = raise .noHeader s := by
  rw [execIdentifier, accept_of_unfaulted hf, withHeader_none hh]

theorem execDirection_noHeader (hf : s.fault = none) (hh : s.hdr = none) :
    execDirection s = raise .noHeader s := by
  rw [execDirection, accept_of_unfaulted hf, withHeader_none hh]

theorem execOperation_noHeader (hf : s.fault = none) (hh : s.hdr = none) :
    execOperation s = raise .noHeader s := by
  rw [execOperation, accept_of_unfaulted hf, withHeader_none hh]

theorem execAuthoritative_noHeader (hf : s.fault = none) (hh : s.hdr = none) :
    execAuthoritative s = raise .noHeader s := by
  rw [execAuthoritative, accept_of_unfaulted hf, withHeader_none hh]

theorem execTruncated_noHeader (hf : s.fault = none) (hh : s.hdr = none) :
    execTruncated s = raise .noHeader s := by
  rw [execTruncated, accept_of_unfaulted hf, withHeader_none hh]

theorem execIdentifier_loaded (hf : s.fault = none) (hh : s.hdr = some h) :
    execIdentifier s = .next (s.respond (specResponse .identifier h)) := by
  rw [execIdentifier, accept_of_unfaulted hf, withHeader_some hh]; rfl

theorem execDirection_loaded (hf : s.fault = none) (hh : s.hdr = some h) :
    execDirection s = .next (s.respond (specResponse .direction h)) := by
  rw [execDirection, accept_of_unfaulted hf, withHeader_some hh, directionOf_value]; rfl

theorem execOperation_loaded (hf : s.fault = none) (hh : s.hdr = some h) :
    execOperation s = .next (s.respond (specResponse .operation h)) := by
  rw [execOperation, accept_of_unfaulted hf, withHeader_some hh, rowOperation_value,
    operationOf_eq]; rfl

theorem execAuthoritative_loaded (hf : s.fault = none) (hh : s.hdr = some h) :
    execAuthoritative s = .next (s.respond (specResponse .authoritative h)) := by
  rw [execAuthoritative, accept_of_unfaulted hf, withHeader_some hh, finishAuthoritative,
    authorityOf_value]; rfl

theorem execTruncated_loaded (hf : s.fault = none) (hh : s.hdr = some h) :
    execTruncated s = .next (s.respond (specResponse .truncated h)) := by
  rw [execTruncated, accept_of_unfaulted hf, withHeader_some hh, finishTruncated,
    truncationOf_value]; rfl

end

/-- AUTHORITATIVE's last part is the `assert_fatal` of 00_scope.md R12. -/
theorem finishAuthoritative_eq_assertFatal (v : Word) (s : State) :
    finishAuthoritative v s =
      assertFatal (decide (v = 0 ∨ v = 1))
        (deliver (.authority (if v = 0 then .NONE else .HAVE))) s := by
  by_cases h0 : v = 0
  · subst h0; rfl
  by_cases h1 : v = 1
  · subst h1; rfl
  rw [finishAuthoritative, authorityOf_eq_none.mpr ⟨h0, h1⟩]
  rw [decide_eq_false (not_or.mpr ⟨h0, h1⟩)]
  rfl

/-- TRUNCATED's last part is the `assert_fatal` of 00_scope.md R12. -/
theorem finishTruncated_eq_assertFatal (v : Word) (s : State) :
    finishTruncated v s =
      assertFatal (decide (v = 0 ∨ v = 1))
        (deliver (.truncation (if v = 0 then .FIT else .TRUNCATED))) s := by
  by_cases h0 : v = 0
  · subst h0; rfl
  by_cases h1 : v = 1
  · subst h1; rfl
  rw [finishTruncated, truncationOf_eq_none.mpr ⟨h0, h1⟩]
  rw [decide_eq_false (not_or.mpr ⟨h0, h1⟩)]
  rfl

/-- `exec` while FAULTED = 0, by what the state holds. -/
theorem exec_unfaulted (i : Instr) {s : State} (hf : s.fault = none) :
    exec i s =
      match i with
      | .construct w => .next ((s.load w).respond .noResult)
      | j =>
        match s.hdr with
        | none => raise .noHeader s
        | some h => .next (s.respond (specResponse j h)) := by
  cases hh : s.hdr with
  | none =>
    cases i with
    | construct w => exact execConstruct_accepted w hf
    | identifier => exact execIdentifier_noHeader hf hh
    | direction => exact execDirection_noHeader hf hh
    | operation => exact execOperation_noHeader hf hh
    | authoritative => exact execAuthoritative_noHeader hf hh
    | truncated => exact execTruncated_noHeader hf hh
  | some h =>
    cases i with
    | construct w => exact execConstruct_accepted w hf
    | identifier => exact execIdentifier_loaded hf hh
    | direction => exact execDirection_loaded hf hh
    | operation => exact execOperation_loaded hf hh
    | authoritative => exact execAuthoritative_loaded hf hh
    | truncated => exact execTruncated_loaded hf hh

/-- Every meaning begins with the acceptance check. -/
theorem exec_of_faulted (i : Instr) {s : State} {c : Cause} (hf : s.fault = some c) :
    exec i s = .fault .stuck := by
  cases i with
  | construct w => rw [exec, execConstruct, accept_of_faulted hf]
  | identifier => rw [exec, execIdentifier, accept_of_faulted hf]
  | direction => rw [exec, execDirection, accept_of_faulted hf]
  | operation => rw [exec, execOperation, accept_of_faulted hf]
  | authoritative => rw [exec, execAuthoritative, accept_of_faulted hf]
  | truncated => rw [exec, execTruncated, accept_of_faulted hf]

/-- Everything an instruction can do when it has a next state: it constructs, it faults NO_HEADER, or
it delivers its result. -/
theorem exec_cases {i : Instr} {s t : State} (h : exec i s = .next t) :
    s.fault = none ∧
    ((∃ w, i = .construct w ∧ t = (s.load w).respond .noResult) ∨
     (i.isAccessor = true ∧ s.hdr = none ∧ t = (s.enterFault .noHeader).respond (.fault .noHeader)) ∨
     (∃ w, i.isAccessor = true ∧ s.hdr = some w ∧ t = s.respond (specResponse i w))) := by
  cases hf : s.fault with
  | some c => rw [exec_of_faulted i hf] at h; cases h
  | none =>
    refine ⟨rfl, ?_⟩
    rw [exec_unfaulted i hf] at h
    cases i with
    | construct w => cases h; exact .inl ⟨w, rfl, rfl⟩
    | _ =>
      right
      cases hh : s.hdr with
      | none =>
        simp only [hh] at h
        exact .inl ⟨rfl, rfl, raise_next h⟩
      | some w =>
        simp only [hh] at h
        cases h
        exact .inr ⟨w, rfl, rfl, rfl⟩

/-- A reserved code has a next state only by faulting ILLEGAL_COMMAND. -/
theorem execIllegal_next {op : BitVec 3} {s t : State} (h : execIllegal op s = .next t) :
    s.fault = none ∧ t = (s.enterFault .illegalCommand).respond (.fault .illegalCommand) := by
  obtain ⟨hf, hr⟩ := accept_next h
  exact ⟨hf, raise_next hr⟩

end Sys2Proof.Machine
end

