-- ==== Sys2Proof/Laws/PerInstr.lean ====
section
/-! SUPPORT. Statements about every instruction as syntax, one lemma per constructor. -/

namespace Sys2Proof.Laws.EncodesAssignedCode

/-- The transaction of an instruction carries a code of the opcode table, never a reserved one
(30_encoding.md R64). -/
def Statement (i : Instr) : Prop := (encode i).wf = true

theorem construct (w : Header) : Statement (.construct w) := rfl
theorem identifier : Statement .identifier := rfl
theorem direction : Statement .direction := rfl
theorem operation : Statement .operation := rfl
theorem authoritative : Statement .authoritative := rfl
theorem truncated : Statement .truncated := rfl

end Sys2Proof.Laws.EncodesAssignedCode
end

