-- ==== Sys2Proof/Laws/Step.lean ====
section
/-! SUPPORT. Everything one step can do, said once. -/

namespace Sys2Proof.Machine

theorem takeEvent_nil {s : State} (hf : s.fault = none) (hp : s.port = []) :
    takeEvent s = none := by
  simp [takeEvent, hf, hp]

theorem takeEvent_cons {s : State} {e : PortEvent} {rest : List PortEvent}
    (hf : s.fault = none) (hp : s.port = e :: rest) :
    takeEvent s = some (e, s.setPort rest) := by
  simp [takeEvent, hf, hp]

/-- While FAULTED = 1 only a reset is taken. -/
theorem takeEvent_faulted {s : State} {c : Cause} (hf : s.fault = some c) :
    takeEvent s = (afterReset s.port).map fun rest => (.reset, s.setPort rest) := by
  cases ha : afterReset s.port <;> simp [takeEvent, hf, ha]

/-- A taken event leaves the block as it was, but for the port moving on. -/
theorem takeEvent_some {s s' : State} {e : PortEvent} (h : takeEvent s = some (e, s')) :
    (∃ rest, s' = s.setPort rest) ∧ (∀ c, e = .command c → s.fault = none) := by
  cases hf : s.fault with
  | none =>
    cases hp : s.port with
    | nil => rw [takeEvent_nil hf hp] at h; cases h
    | cons e' rest =>
      rw [takeEvent_cons hf hp] at h
      cases h
      exact ⟨⟨rest, rfl⟩, fun _ _ => rfl⟩
  | some c =>
    rw [takeEvent_faulted hf] at h
    cases ha : afterReset s.port with
    | none => rw [ha] at h; cases h
    | some rest =>
      rw [ha] at h
      cases h
      exact ⟨⟨rest, rfl⟩, fun _ hc => by cases hc⟩

/-- A step with a next state: it waits, or takes a reset, or performs a command. -/
theorem step_cases {s t : State} (h : step s = .next t) :
    (s.fault = none ∧ s.port = [] ∧ t = s) ∨
    (∃ s', takeEvent s = some (.reset, s') ∧ t = s'.takeReset) ∨
    (∃ c rest, s.fault = none ∧ s.port = .command c :: rest ∧
      perform (decode c) (s.setPort rest) = .next t) := by
  unfold step stepPort at h
  cases hf : s.fault with
  | none =>
    cases hp : s.port with
    | nil =>
      rw [takeEvent_nil hf hp] at h
      change accept _ s = _ at h
      rw [accept_of_unfaulted hf] at h
      cases h
      exact .inl ⟨rfl, rfl, rfl⟩
    | cons e rest =>
      rw [takeEvent_cons hf hp] at h
      cases e with
      | command c => exact .inr (.inr ⟨c, rest, rfl, rfl, h⟩)
      | reset => cases h; exact .inr (.inl ⟨_, takeEvent_cons hf hp, rfl⟩)
  | some c =>
    rw [takeEvent_faulted hf] at h
    cases ha : afterReset s.port with
    | none =>
      rw [ha] at h
      change accept _ s = _ at h
      rw [accept_of_faulted hf] at h
      cases h
    | some rest =>
      rw [ha] at h
      cases h
      exact .inr (.inl ⟨_, by rw [takeEvent_faulted hf, ha]; rfl, rfl⟩)

/-- A performed command: an instruction's effect, or ILLEGAL_COMMAND. -/
theorem perform_cases {c : RawCommand} {s t : State} (h : perform (decode c) s = .next t) :
    (∃ i, decode c = .instr i ∧ exec i s = .next t) ∨
    (reservedOp c.op = true ∧ s.fault = none ∧
      t = (s.enterFault .illegalCommand).respond (.fault .illegalCommand)) := by
  cases hd : decode c with
  | instr i => rw [hd] at h; exact .inl ⟨i, rfl, h⟩
  | illegal op =>
    rw [hd] at h
    exact .inr ⟨(decode_illegal hd).1, execIllegal_next (op := op) h⟩

end Sys2Proof.Machine
end

