-- ==== Sys2Proof/Laws/Run.lean ====
section
/-! SUPPORT. Runs, one step at a time. -/

namespace Sys2Proof.Machine

@[simp] theorem run_zero (s : State) : Host.Core.run core 0 s = .next s := rfl

/-- A run goes on from its first step's next state. -/
theorem run_succ_of_next {k : Nat} {s t : State} (h : step s = .next t) :
    Host.Core.run core (k + 1) s = Host.Core.run core k t := by
  have hc : core.step s = .next t := h
  simp only [Host.Core.run]
  rw [hc]

@[simp] theorem runToEnd_zero (last s : State) : runToEnd 0 last s = last := rfl

/-- A run goes on from its first step's next state, which is the end so far if it performed a command. -/
theorem runToEnd_succ_of_next {k : Nat} {last s t : State} (h : step s = .next t) :
    runToEnd (k + 1) last s = runToEnd k (if s.acceptsCommand then t else last) t := by
  simp [runToEnd, h]

/-- A run ends, at the latest, where there is no step. -/
theorem runToEnd_succ_of_fault {k : Nat} {last s : State} {r : Fault} (h : step s = .fault r) :
    runToEnd (k + 1) last s = last := by
  simp [runToEnd, h]

/-- With FAULTED = 0 a command first at the port is accepted. -/
theorem acceptsCommand_of_command {s : State} {c : RawCommand} {rest : List PortEvent}
    (hf : s.fault = none) (hp : s.port = .command c :: rest) : s.acceptsCommand = true := by
  rw [State.acceptsCommand, takeEvent_cons hf hp]

/-- A command is accepted only with FAULTED = 0 and a command first at the port. -/
theorem acceptsCommand_eq_true {s : State} (h : s.acceptsCommand = true) :
    s.fault = none ∧ ∃ c rest, s.port = .command c :: rest := by
  cases hf : s.fault with
  | some k =>
    rw [State.acceptsCommand, takeEvent_faulted hf] at h
    cases ha : afterReset s.port <;> rw [ha] at h <;> cases h
  | none =>
    cases hp : s.port with
    | nil => rw [State.acceptsCommand, takeEvent_nil hf hp] at h; cases h
    | cons e rest =>
      cases e with
      | command c => exact ⟨rfl, c, rest, rfl⟩
      | reset => rw [State.acceptsCommand, takeEvent_cons hf hp] at h; cases h

/-- A property that every step keeps, and that the end so far has, holds at the end of a run. -/
theorem runToEnd_induction {P : State → Prop} (hstep : ∀ s t, P s → step s = .next t → P t)
    (k : Nat) (last s : State) (hl : P last) (h : P s) : P (runToEnd k last s) := by
  induction k generalizing last s with
  | zero => exact hl
  | succ k ih =>
    cases hs : step s with
    | next t =>
      have ht : P t := hstep s t h hs
      rw [runToEnd_succ_of_next hs]
      exact ih _ t (by split <;> assumption) ht
    | fault r => rw [runToEnd_succ_of_fault hs]; exact hl
    | refused r => simp [runToEnd, hs]; exact hl

end Sys2Proof.Machine
end

