-- ==== Sys2Proof/Tests/Slice0.lean ====
section
/-! SUPPORT. Small tests, their expected values taken from spec/95_test_vectors.md or worked out from the
rule named, and the witnesses that the hypotheses of each statement can be met. -/

namespace Sys2Proof.Tests

open Sys2Proof.Machine

/-- A loaded block with no fault and nothing presented. -/
def loaded (w0 w1 : Word) : State :=
  { hdr := some #v[w0, w1, 0xDEAD, 0xBEEF, 0xCAFE, 0xF00D], fault := none, port := [],
    responses := [] }

/-- A faulted block with no header. -/
def faulted (c : Cause) : State := { hdr := none, fault := some c, port := [], responses := [.fault c] }

/-- The next state, if there is one. -/
def after (o : Machine.Outcome) : Option State :=
  match o with
  | .next t => some t
  | .fault _ => none
  | .refused _ => none

/-- The last response and STATUS after a step, if there is a next state. -/
def seen (o : Machine.Outcome) : Option (Option Response × BitVec 4) :=
  (after o).map fun t => (t.responses.getLast?, t.status)

/-! ### WellFormed: one ill-formed term for each check -/

theorem test_wf_refuses_op_110 : RawCommand.wf ⟨0b110#3, 0⟩ = false := by decide
theorem test_wf_refuses_op_111 : RawCommand.wf ⟨0b111#3, 0⟩ = false := by decide
theorem test_wf_refuses_illegal_of_assigned_code : Command.wf (.illegal 0b101#3) = false := by decide
theorem test_wf_refuses_wide_literal : literalWf 0x10000 = false := by decide
theorem test_wf_accepts_widest_literal : literalWf 0xFFFF = true := by decide

/-! ### Decoding: the words of 30_encoding.md R62 and R64, written out -/

/-- 95_test_vectors.md 2.1: the DIN of `CONSTRUCT 1,2,3,4,5,6`. -/
theorem test_decode_construct :
    decode ⟨0b000#3, 0x000600050004000300020001#96⟩ = .instr (.construct #v[1, 2, 3, 4, 5, 6]) := by
  decide
theorem test_decode_identifier : decode ⟨0b001#3, 0⟩ = .instr .identifier := by decide
theorem test_decode_direction : decode ⟨0b010#3, 0⟩ = .instr .direction := by decide
theorem test_decode_operation : decode ⟨0b011#3, 0⟩ = .instr .operation := by decide
theorem test_decode_authoritative : decode ⟨0b100#3, 0⟩ = .instr .authoritative := by decide
theorem test_decode_truncated : decode ⟨0b101#3, 0⟩ = .instr .truncated := by decide
theorem test_decode_reserved_110 : decode ⟨0b110#3, 0⟩ = .illegal 0b110#3 := by decide
theorem test_decode_reserved_111 : decode ⟨0b111#3, 0⟩ = .illegal 0b111#3 := by decide
/-- 95_test_vectors.md P1, row 1. -/
theorem test_encode_construct :
    encode (.construct #v[0xBEEF, 0x0015, 0x0001, 0, 0, 0]) =
      ⟨0b000#3, 0x0000000000000001_0015_BEEF#96⟩ := by
  decide
/-- The table numbers OP in bits 2:0 (spec/opcode_table.json). -/
theorem test_table_word_operation : decodeTableWord 8 3 = some .operation := by decide

/-! ### CONSTRUCT (95_test_vectors.md 2.1) -/

theorem test_construct_from_reset :
    (after (exec (.construct #v[0x1234, 0x0015, 0, 0, 0, 0]) State.reset)).map
      (fun t => (t.hdr, t.status)) = some (some #v[0x1234, 0x0015, 0, 0, 0, 0], 0x1#4) := by
  decide
theorem test_construct_replaces_all :
    (after (exec (.construct #v[7, 8, 9, 10, 11, 12]) (loaded 1 2))).map State.hdr =
      some (some #v[7, 8, 9, 10, 11, 12]) := by
  decide

/-! ### IDENTIFIER (2.2) -/

theorem test_identifier_not_sign_extended :
    seen (exec .identifier (loaded 0x8000 0)) =
      some (some (.result (.identifier 0x8000)), 0x1#4) := by
  decide
theorem test_identifier_before_construct :
    seen (exec .identifier State.reset) = some (some (.fault .noHeader), 0xA#4) := by
  decide

/-! ### DIRECTION (2.3) -/

theorem test_direction_other_bits_set :
    seen (exec .direction (loaded 0 0xFFFE)) =
      some (some (.result (.direction .REQUEST)), 0x1#4) := by
  decide
theorem test_direction_bit_0 :
    seen (exec .direction (loaded 0 0x0001)) =
      some (some (.result (.direction .RESPONSE)), 0x1#4) := by
  decide

/-! ### OPERATION (2.4) -/

theorem test_operation_all_values_others_1 :
    ([0xFFF1, 0xFFF3, 0xFFF5, 0xFFF7, 0xFFF9, 0xFFFB, 0xFFFD, 0xFFFF].map fun w =>
      operationOf ((rowOperation.value #v[0, w, 0, 0, 0, 0]).setWidth 3)) =
      [.QUERY, .INVERSE_QUERY, .STATUS, .RESERVED, .RESERVED, .RESERVED, .RESERVED, .RESERVED] := by
  decide
theorem test_operation_lowest_reserved :
    seen (exec .operation (loaded 0 0x0006)) =
      some (some (.result (.operation .RESERVED)), 0x1#4) := by
  decide

/-! ### AUTHORITATIVE and TRUNCATED (2.5) -/

theorem test_authoritative_other_bits_set :
    seen (exec .authoritative (loaded 0 0xFFEF)) =
      some (some (.result (.authority .NONE)), 0x1#4) := by
  decide
theorem test_authoritative_source_s4 :
    seen (exec .authoritative (loaded 0 0xFFDF)) =
      some (some (.result (.authority .HAVE)), 0x1#4) := by
  decide
theorem test_truncated_source_s4 :
    seen (exec .truncated (loaded 0 0xFFDF)) =
      some (some (.result (.truncation .FIT)), 0x1#4) := by
  decide
theorem test_truncated_other_bits_set :
    seen (exec .truncated (loaded 0 0xFFF1)) =
      some (some (.result (.truncation .TRUNCATED)), 0x1#4) := by
  decide
/-- 42_flags_decode.md R105: a value of 2 would be fatal; STATUS is then 0xF (10_state.md R29). -/
theorem test_internal_consistency_is_kept :
    seen (finishAuthoritative 2 (loaded 0 0)) =
      some (some (.fault .internalConsistency), 0xF#4) := by
  decide

/-! ### Faults and reset (2.7) -/

theorem test_reserved_from_reset :
    seen (step (State.reset.withFetchWord 8 6)) = some (some (.fault .illegalCommand), 0x6#4) := by
  decide
theorem test_reserved_when_loaded :
    seen (step ((loaded 1 2).present (.command ⟨0b111#3, 5⟩))) =
      some (some (.fault .illegalCommand), 0x7#4) := by
  decide
theorem test_faulted_has_no_step :
    after (step ((faulted .noHeader).present (.command ⟨0b110#3, 0⟩))) = none := by
  decide
theorem test_reset_leaves_fault :
    (after (step ((faulted .noHeader).present .reset))).map (fun t => (t.hdr, t.fault, t.status)) =
      some (none, none, 0x0#4) := by
  decide
/-- 95_test_vectors.md P3: the CONSTRUCT of row 2 is lost and the reset of row 3 is taken. -/
theorem test_reset_after_unaccepted_command :
    (after (step { faulted .noHeader with
      port := [.command ⟨0b000#3, 0x1111⟩, .reset, .command ⟨0b001#3, 0⟩] })).map
      (fun t => (t.status, t.port)) = some (0x0#4, [.command ⟨0b001#3, 0⟩]) := by
  decide
theorem test_din_ignored :
    seen (step ((loaded 0x00AA 0).present (.command ⟨0b001#3, BitVec.allOnes 96⟩))) =
      some (some (.result (.identifier 0x00AA)), 0x1#4) := by
  decide

/-- 70_reset_and_hazards.md R179: the end state is the one after the last accepted command. -/
theorem test_reset_after_fault_does_not_end_well :
    (endState [.command ⟨0b010#3, 0⟩, .reset]).fault = some .noHeader := by decide
theorem test_reset_after_construct_keeps_final_header :
    (endState [.command ⟨0b000#3, 0x000600050004000300020001#96⟩, .reset]).hdr =
      some #v[1, 2, 3, 4, 5, 6] := by decide

/-! ### Assembler (30_encoding.md R69) -/

theorem test_assemble_construct :
    assembleLine "Construct 0xBEEF, 0x0015, 0x0001, 0, 0, 0 ; P1".toList =
      some (some ⟨0b000#3, 0x0000000000000001_0015_BEEF#96⟩) := by
  decide
theorem test_assemble_program :
    assemble ["truncated".toList, "; nothing".toList, ".illegal 0b110".toList] =
      some [⟨0b101#3, 0⟩, ⟨0b110#3, 0⟩] := by
  decide
theorem test_assemble_refuses_wide_literal :
    assembleLine "CONSTRUCT 0x10000, 0, 0, 0, 0, 0".toList = none := by decide

/-! ### Witnesses: states and operands that meet the hypotheses of the statements

`loaded` and `faulted` serve every statement about a loaded, an empty or a faulted block. -/

/-- The hypotheses `s.fault = none` and `s.hdr = some h` of the accessors' statements. -/
theorem witness_loaded : (loaded 0x1234 0x0015).fault = none ∧
    (loaded 0x1234 0x0015).hdr = some #v[0x1234, 0x0015, 0xDEAD, 0xBEEF, 0xCAFE, 0xF00D] := by decide

/-- The hypotheses `s.fault = none` and `s.hdr = none`, with an accessor. -/
theorem witness_empty : State.reset.fault = none ∧ State.reset.hdr = none ∧
    Instr.isAccessor .truncated = true := by decide

/-- The hypothesis `s.fault = some c`. -/
theorem witness_faulted : (faulted .illegalCommand).fault = some .illegalCommand := by decide

/-- DecodeOfEncodeIsTheInstruction. -/
theorem witness_wf : Instr.wf (.construct #v[1, 2, 3, 4, 5, 6]) = true ∧
    Command.wf (.illegal 0b111#3) = true := by decide

/-- EncodingClasses: a reserved code presented; an assigned code; a code other than CONSTRUCT's. -/
theorem witness_reserved_presented :
    let s := (loaded 1 2).present (.command ⟨0b110#3, 9⟩)
    s.fault = none ∧ s.port = .command ⟨0b110#3, 9⟩ :: [] ∧
    (0b101#3 ≠ 0b110#3 ∧ 0b101#3 ≠ 0b111#3) ∧ 0b111#3 ≠ 0b000#3 := by decide

/-- TableWordsDecodeAndRun. -/
theorem witness_table_word :
    State.reset.fault = none ∧ decodeTableWord 8 5 = some .truncated := by decide

/-- AssemblerRefusesWideLiterals: both clauses, at the ends of the range. -/
theorem witness_literals : (0xFFFF ≤ 0xFFFF ∧ 0 ≤ 0xFFFF) ∧ 0xFFFF < 0x10000 := by decide

/-- StepRunsTheDecodedInstruction. -/
theorem witness_step_decodes :
    let s := (loaded 1 2).present (.command ⟨0b011#3, 0⟩)
    s.fault = none ∧ s.port = .command ⟨0b011#3, 0⟩ :: [] ∧
    decode ⟨0b011#3, 0⟩ = .instr .operation := by decide

/-- IdleBlockWaits. -/
theorem witness_idle : State.reset.fault = none ∧ State.reset.port = [] := by decide

/-- OperationDecodesOpcode: a value of each clause, at the ends of 3 to 7. -/
theorem witness_opcode_values :
    ([0x0000#16, 0x0002#16, 0x0004#16, 0x0006#16, 0x000E#16].map fun w : Word =>
      ((w &&& 0x000E#16) >>> 1).toNat) = [0, 1, 2, 3, 7] := by decide

/-- AuthoritativeDecodesAa, TruncatedDecodesTc, CausesAreRaisedAsListed: a value outside 0 and 1. -/
theorem witness_other_value : (2#16 : Word) ≠ 0 ∧ (2#16 : Word) ≠ 1 := by decide

/-- ConstructFrame: a CONSTRUCT with a next state. -/
theorem witness_construct_next :
    exec (.construct #v[1, 2, 3, 4, 5, 6]) State.reset =
      .next (State.reset.withConstructed #v[1, 2, 3, 4, 5, 6]) := rfl

/-- AccessorFrame, and CausesAreRaisedAsListed's last clause: an accessor with a next state, faulted. -/
theorem witness_accessor_faults : Instr.isAccessor .direction = true ∧
    exec .direction State.reset = .next (State.reset.withFault .noHeader) ∧
    (State.reset.withFault .noHeader).fault = some .noHeader := ⟨rfl, rfl, rfl⟩

/-- AccessorFrame over a header: an accessor with a next state, not faulted. -/
theorem witness_accessor_next :
    exec .direction (loaded 0 1) = .next ((loaded 0 1).withResult (.direction .RESPONSE)) := rfl

/-- EachCommandReachesOnlyItsWords: headers that differ in every other word. -/
theorem witness_headers_agree_on_one_word :
    let h : Header := #v[7, 1, 2, 3, 4, 5]
    let h' : Header := #v[7, 9, 9, 9, 9, 9]
    let h'' : Header := #v[8, 1, 9, 9, 9, 9]
    h[0] = h'[0] ∧ h[1] = h''[1] ∧ Instr.isAccessor .operation = true ∧
    Instr.operation ≠ .identifier := by decide

/-- FlagAccessorsReadOnlyTheirField: two flags words that agree on every field and nothing else. -/
theorem witness_fields_agree :
    (0x0015#16).getLsbD 0 = (0xFFD5#16).getLsbD 0 ∧
    (0x0015#16).extractLsb' 1 3 = (0xFFD5#16).extractLsb' 1 3 ∧
    (0x0015#16).getLsbD 4 = (0xFFD5#16).getLsbD 4 ∧
    (0x0015#16).getLsbD 5 = (0xFFD5#16).getLsbD 5 := by decide

/-- ExtractAnswersTheFieldSlice: the top field, of the whole width, and the empty one. -/
theorem witness_field : 13 + 3 ≤ 16 ∧ 0 + 16 ≤ 16 ∧ 16 + 0 ≤ 16 := by decide

/-- InternalConsistencyIsNeverRaised: a performed command with a next state. -/
theorem witness_perform_next :
    perform (decode ⟨0b101#3, 0⟩) (loaded 0 0x0020) =
      .next ((loaded 0 0x0020).withResult (.truncation .TRUNCATED)) := rfl

/-- ChecksAreMadeInOrder: the ends of the accessors' codes. -/
theorem witness_accessor_codes :
    1 ≤ (0b001#3).toNat ∧ (0b001#3).toNat ≤ 5 ∧ 1 ≤ (0b101#3).toNat ∧ (0b101#3).toNat ≤ 5 := by
  decide

/-- FaultedBlockIsStuckUntilReset: a command presented with no reset behind it; a reset; an end of a
run in that state. -/
theorem witness_faulted_port :
    (∀ e ∈ [PortEvent.command ⟨0b000#3, 0⟩], e ≠ .reset) ∧
    ((faulted .noHeader).present .reset).port = .reset :: [] ∧
    endState [.command ⟨0b010#3, 0⟩] = faulted .noHeader := by decide

/-- ResetIsTakenPastUnacceptedCommands. -/
theorem witness_reset_behind_commands :
    let s := { faulted .noHeader with port := [.command ⟨0b000#3, 7⟩, .reset] }
    s.fault = some .noHeader ∧
    s.port = [RawCommand.mk 0b000#3 7].map .command ++ .reset :: [] := by decide

/-- ResetIsTakenInEveryState: in a loaded block and in a faulted one. -/
theorem witness_reset_presented :
    ((loaded 1 2).present .reset).port = .reset :: [] ∧
    ((faulted .noHeader).present .reset).port = .reset :: [] := by decide

/-- OnlyResetClearsFaultAndValid, StatusIsAViewOfTheEnvelope, OnlyConstructWritesTheHeader: a step that
takes a reset from a loaded block. -/
theorem witness_reset_step :
    let s := (loaded 1 2).present .reset
    let t := (loaded 1 2).takeReset
    step s = .next t ∧ (s.hdr = some #v[1, 2, 0xDEAD, 0xBEEF, 0xCAFE, 0xF00D] ∧ t.hdr = none) ∧
    t.status ≠ s.status ∧ t.hdr ≠ s.hdr := ⟨rfl, by decide, by decide, by decide⟩

/-- OnlyResetClearsFaultAndValid's other clause: a step that clears a fault. -/
theorem witness_fault_cleared :
    let s := (faulted .noHeader).present .reset
    step s = .next (faulted .noHeader).takeReset ∧ s.fault = some .noHeader ∧
    (faulted .noHeader).takeReset.fault ≠ some .noHeader := ⟨rfl, by decide, by decide⟩

/-- OnlyConstructWritesTheHeader's other clause: a step that constructs. -/
theorem witness_construct_step :
    let s := State.reset.present (.command ⟨0b000#3, 0x000600050004000300020001#96⟩)
    step s = .next (State.reset.withConstructed #v[1, 2, 3, 4, 5, 6]) ∧
    (State.reset.withConstructed #v[1, 2, 3, 4, 5, 6]).hdr ≠ s.hdr := ⟨rfl, by decide⟩

/-- EveryStepKeepsTheStatusInvariant: a faulted state that meets the invariant and has a step. -/
theorem witness_invariant : ((faulted .noHeader).present .reset).Inv ∧
    step ((faulted .noHeader).present .reset) = .next (faulted .noHeader).takeReset :=
  ⟨⟨by decide, fun c h => by cases h; rfl⟩, rfl⟩

/-- StreamSeesTheMostRecentConstruct: a stream over a loaded block (the other two clauses from reset). -/
theorem witness_stream :
    let cs : List RawCommand := [⟨0b010#3, 3⟩, ⟨0b000#3, 0⟩]
    let is : List Instr := [.direction, .construct #v[0, 0, 0, 0, 0, 0]]
    cs.map decode = is.map .instr ∧
    ({ loaded 1 2 with port := cs.map .command }).port = cs.map .command ++ [] := by decide

/-- The same statement from no header: a CONSTRUCT first, and an accessor first. -/
theorem witness_stream_from_reset :
    State.reset.fault = none ∧ State.reset.hdr = none ∧
    ([⟨0b000#3, 0⟩, ⟨0b001#3, 0⟩] : List RawCommand).map decode =
      [Instr.construct #v[0, 0, 0, 0, 0, 0], .identifier].map .instr ∧
    ([⟨0b001#3, 0⟩] : List RawCommand).map decode = [Instr.identifier].map .instr := by decide

/-- IdentifierIsTheConstructedWordZero. -/
theorem witness_identity_stream :
    (∀ i ∈ [Instr.operation], i.isAccessor = true) ∧
    ({ loaded 1 2 with
        port := (Instr.construct #v[9, 0, 0, 0, 0, 0] :: [Instr.operation] ++ [Instr.identifier]).map
          PortEvent.ofInstr }).fault = none := by decide

/-- EveryMergeGivesEachCallerItsResults: two callers, the second's command between the first's two. -/
theorem witness_merge :
    Interleaves [Instr.direction, .truncated] [.identifier] [.direction, .identifier, .truncated] ∧
    (∀ i ∈ [Instr.direction, .identifier, .truncated], i.isAccessor = true) :=
  ⟨.left _ (.right _ (.left _ .nil)), by decide⟩

/-- ResetsAfterTheLastCommandAreNoPartOfTheRun: a faulted run with two resets behind it. -/
theorem witness_trailing_resets : ∀ e ∈ [PortEvent.reset, .reset], e = .reset := by decide

/-- RunAfterResetEndsAsIfItBeganThere: a command after the reset. -/
theorem witness_command_after_reset :
    PortEvent.command ⟨0b000#3, 7⟩ ∈ [.reset, PortEvent.command ⟨0b000#3, 7⟩] := by decide

end Sys2Proof.Tests
end

/-! SUPPORT. The state family (10_state.md): what one step can do to HW, VALID, FAULTED and CAUSE, STATUS
by its fields, and the proofs of the family's statements. -/

namespace Sys2Proof

/-- Only OP = 0b000 decodes to CONSTRUCT, whose words are then the slices of DIN (30_encoding.md R62). -/
theorem decode_eq_construct {c : RawCommand} {w : Header}
    (h : decode c = .instr (.construct w)) : c = ⟨0b000#3, c.din⟩ ∧ w = wordsOfDin c.din := by
  obtain ⟨op, din⟩ := c
  obtain rfl : 0b000#3 = op := (decode_instr h).2
  cases h
  exact ⟨rfl, rfl⟩

theorem wordsOfDin_getElem (din : BitVec 96) (k : Fin 6) :
    (wordsOfDin din)[k] = din.extractLsb' (16 * k.val) 16 := by
  fin_cases k <;> rfl

end Sys2Proof

namespace Sys2Proof.Machine

/-- CAUSE is 0b00 only without a fault (10_state.md R28). -/
theorem Cause.code_ne_zero (c : Cause) : c.code ≠ 0b00#2 := by
  cases c <;> decide

/-- A concatenation laid out as STATUS is, read back field by field (10_state.md R29). -/
theorem statusLayout_fields : ∀ (c : BitVec 2) (f v : BitVec 1),
    (c ++ f ++ v).getLsbD 0 = v.getLsbD 0 ∧ (c ++ f ++ v).getLsbD 1 = f.getLsbD 0 ∧
    (c ++ f ++ v).extractLsb' 2 2 = c := by
  decide

theorem State.valid_getLsbD_zero (s : State) : s.valid.getLsbD 0 = s.hdr.isSome := by
  cases hh : s.hdr <;> simp [State.valid, hh]

theorem State.faulted_getLsbD_zero (s : State) : s.faulted.getLsbD 0 = s.fault.isSome := by
  cases hf : s.fault <;> simp [State.faulted, hf]

theorem State.cause_of_unfaulted {s : State} (hf : s.fault = none) : s.cause = 0b00#2 := by
  simp [State.cause, hf]

theorem State.cause_of_faulted {s : State} {c : Cause} (hf : s.fault = some c) :
    s.cause = c.code := by
  simp [State.cause, hf]

theorem State.status_getLsbD_zero (s : State) : s.status.getLsbD 0 = s.hdr.isSome :=
  (statusLayout_fields s.cause s.faulted s.valid).1.trans s.valid_getLsbD_zero

theorem State.status_getLsbD_one (s : State) : s.status.getLsbD 1 = s.fault.isSome :=
  (statusLayout_fields s.cause s.faulted s.valid).2.1.trans s.faulted_getLsbD_zero

theorem State.status_extractLsb'_cause (s : State) : s.status.extractLsb' 2 2 = s.cause :=
  (statusLayout_fields s.cause s.faulted s.valid).2.2

/-- STATUS is a view of the header and the fault, and of nothing else (10_state.md R29). -/
theorem State.status_congr {s t : State} (hh : t.hdr = s.hdr) (hf : t.fault = s.fault) :
    t.status = s.status := by
  rw [State.status_eq, State.status_eq, hh, hf]

/-- What a step does to the block's own state (10_state.md R34): it leaves it, or it performs a CONSTRUCT,
or it enters a fault and leaves the header, or it takes a reset. -/
theorem step_envelope {s t : State} (h : step s = .next t) :
    (t.hdr = s.hdr ∧ t.fault = s.fault) ∨
    (∃ din rest, s.port = .command ⟨0b000#3, din⟩ :: rest ∧ s.fault = none ∧
      t.hdr = some (wordsOfDin din)) ∨
    (t.hdr = s.hdr ∧ s.fault = none ∧ ∃ c, t.fault = some c) ∨
    (∃ s', takeEvent s = some (.reset, s') ∧ t.hdr = none) := by
  obtain ⟨-, -, rfl⟩ | ⟨s', hs', rfl⟩ | ⟨c, rest, hf, hp, ht⟩ := step_cases h
  case inl => exact .inl ⟨rfl, rfl⟩
  case inr.inl => exact .inr (.inr (.inr ⟨s', hs', rfl⟩))
  obtain ⟨i, hd, hi⟩ | ⟨-, -, rfl⟩ := perform_cases ht
  case inr => exact .inr (.inr (.inl ⟨rfl, hf, .illegalCommand, rfl⟩))
  obtain ⟨-, ⟨w, rfl, rfl⟩ | ⟨-, -, rfl⟩ | ⟨w, -, -, rfl⟩⟩ := exec_cases hi
  case inl =>
    obtain ⟨hc, rfl⟩ := decode_eq_construct hd
    exact .inr (.inl ⟨c.din, rest, hc ▸ hp, hf, rfl⟩)
  case inr.inl => exact .inr (.inr (.inl ⟨rfl, hf, .noHeader, rfl⟩))
  case inr.inr => exact .inl ⟨rfl, rfl⟩

/-- A step changes STATUS only by a CONSTRUCT, by entering a fault, or by a reset (10_state.md R29). -/
theorem step_status_changes {s t : State} (h : step s = .next t) (hne : t.status ≠ s.status) :
    (∃ din rest, s.port = .command ⟨0b000#3, din⟩ :: rest ∧ s.fault = none ∧
      t.hdr = some (wordsOfDin din)) ∨
    (s.fault = none ∧ ∃ c, t.fault = some c) ∨
    (∃ s', takeEvent s = some (.reset, s')) := by
  obtain ⟨hh, hf⟩ | hconstruct | ⟨-, hfault⟩ | ⟨s', hs', -⟩ := step_envelope h
  · exact absurd (State.status_congr hh hf) hne
  · exact .inl hconstruct
  · exact .inr (.inl hfault)
  · exact .inr (.inr ⟨s', hs'⟩)

/-- Settles O33: STATUS is read back field by field from its layout, and a step that changes it is, by
`step_envelope`, one of the three. -/
theorem statusIsAViewOfTheEnvelope : Obligations.StatusIsAViewOfTheEnvelope := by
  refine ⟨State.status_eq State.reset, fun s =>
    ⟨s.status_getLsbD_zero, s.status_getLsbD_one, ?_, ?_, fun _ => step_status_changes⟩⟩
  · intro hf
    rw [State.status_extractLsb'_cause, State.cause_of_unfaulted hf]
  · intro c hf
    rw [State.status_extractLsb'_cause, State.cause_of_faulted hf]
    exact ⟨rfl, c.code_ne_zero⟩

/-- Settles O34: of the four things a step can do to the block's state, only CONSTRUCT and reset change
the header. -/
theorem onlyConstructWritesTheHeader : Obligations.OnlyConstructWritesTheHeader := by
  intro s t h hne
  obtain ⟨hh, -⟩ | ⟨din, rest, hp, hf, hw⟩ | ⟨hh, -⟩ | hreset := step_envelope h
  · exact absurd hh hne
  · exact .inl ⟨din, rest, wordsOfDin din, hp, hf, hw, wordsOfDin_getElem din⟩
  · exact absurd hh hne
  · exact .inr hreset

end Sys2Proof.Machine

/-! SUPPORT. The memory family (20_memory.md): what an accessor does with a header and without one, which
word its response reads, and the proofs of the family's statements. -/

namespace Sys2Proof.Machine

theorem exec_construct_unfaulted (w : Header) {s : State} (hf : s.fault = none) :
    exec (.construct w) s = .next (s.withConstructed w) :=
  execConstruct_accepted w hf

theorem State.withConstructed_word (s : State) (w : Header) (k : Fin 6) :
    (s.withConstructed w).word k = some w[k] := rfl

/-- CONSTRUCT's next state does not see the header it replaces (20_memory.md R41). -/
theorem State.withConstructed_of_hdr (s : State) (w : Header) (x : Option Header) :
    ({ s with hdr := x } : State).withConstructed w = s.withConstructed w := rfl

section
variable {i : Instr} {s s' : State} {h h' : Header} {r : Result}

/-- An accessor's response over a header is a result, never a fault. -/
theorem specResponse_accessor (ha : i.isAccessor = true) (h : Header) :
    ∃ r, specResponse i h = .result r := by
  cases i with
  | construct w => cases ha
  | _ => exact ⟨_, rfl⟩

theorem exec_accessor_noHeader (ha : i.isAccessor = true) (hf : s.fault = none)
    (hh : s.hdr = none) : exec i s = .next (s.withFault .noHeader) := by
  rw [exec_unfaulted i hf, hh]
  cases i with
  | construct w => cases ha
  | _ => rfl

/-- Over a header an accessor only delivers its result (20_memory.md R50). -/
theorem exec_accessor_loaded (ha : i.isAccessor = true) (hf : s.fault = none)
    (hh : s.hdr = some h) (hr : specResponse i h = .result r) :
    exec i s = .next (s.withResult r) := by
  have hdelivered : s.withResult r = s.respond (specResponse i h) := by rw [hr]; rfl
  rw [hdelivered, exec_unfaulted i hf, hh]
  cases i with
  | construct w => cases ha
  | _ => rfl

/-- Headers over which an accessor's response is the same cannot be told apart by it, whatever else the
two states hold. -/
theorem exec_accessor_same_result (ha : i.isAccessor = true) (hf : s.fault = none)
    (hf' : s'.fault = none) (hh : s.hdr = some h) (hh' : s'.hdr = some h')
    (heq : specResponse i h = specResponse i h') :
    ∃ r, exec i s = .next (s.withResult r) ∧ exec i s' = .next (s'.withResult r) := by
  obtain ⟨r, hr⟩ := specResponse_accessor ha h
  exact ⟨r, exec_accessor_loaded ha hf hh hr, exec_accessor_loaded ha hf' hh' (heq ▸ hr)⟩

/-- IDENTIFIER reads HW[0] alone (20_memory.md R41). -/
theorem specResponse_identifier_congr (hw : h[0] = h'[0]) :
    specResponse .identifier h = specResponse .identifier h' := by
  simp only [specResponse, hw]

/-- A flag accessor reads HW[1] alone (20_memory.md R41). -/
theorem specResponse_flag_congr (ha : i.isAccessor = true) (hi : i ≠ .identifier)
    (hw : h[1] = h'[1]) : specResponse i h = specResponse i h' := by
  cases i with
  | construct w => cases ha
  | identifier => exact absurd rfl hi
  | _ => simp only [specResponse, hw]

end

/-- Settles O18: delivering a result leaves the header and the fault state, so the second run of the
accessor delivers over the same header. -/
theorem accessorsArePureAndIdempotent : Obligations.AccessorsArePureAndIdempotent := by
  intro i s ha hf
  refine ⟨fun h hh => ?_, exec_accessor_noHeader ha hf⟩
  obtain ⟨r, hr⟩ := specResponse_accessor ha h
  exact ⟨r, exec_accessor_loaded ha hf hh hr,
    exec_accessor_loaded (s := s.withResult r) ha hf hh hr⟩

/-- Settles O20: CONSTRUCT overwrites whatever header there was, and an accessor's response is a function
of the one word it reads. -/
theorem eachCommandReachesOnlyItsWords : Obligations.EachCommandReachesOnlyItsWords := by
  refine ⟨fun w s x hf => ?construct, fun s h h' hf hw => ?identifier,
    fun i s h h' ha hi hf hw => ?flags⟩
  case construct =>
    refine ⟨s.withConstructed w, exec_construct_unfaulted w hf, ?_, s.withConstructed_word w⟩
    rw [exec_construct_unfaulted w (s := { s with hdr := x }) hf, State.withConstructed_of_hdr]
  case identifier =>
    exact exec_accessor_same_result rfl hf hf rfl rfl (specResponse_identifier_congr hw)
  case flags =>
    exact exec_accessor_same_result ha hf hf rfl rfl (specResponse_flag_congr ha hi hw)

end Sys2Proof.Machine

/-! SUPPORT. The encoding family (30_encoding.md): how DIN packs the six words, what a step does with a
command by its code, what RESULT carries, and the proofs of the family's statements. -/

namespace Sys2Proof

/-- Slice `k` of a packed header is its word `k` (30_encoding.md R62): the words above it lie past the
slice's end, and those below it before the slice's start. -/
theorem dinOfWords_extractLsb' (w : Header) (k : Fin 6) :
    (dinOfWords w).extractLsb' (16 * k.val) 16 = w[k] := by
  change BitVec.extractLsb' (n := 16 + 16 + 16 + 16 + 16 + 16) _ _
    (w[5] ++ w[4] ++ w[3] ++ w[2] ++ w[1] ++ w[0]) = _
  fin_cases k <;>
    simp (disch := decide) only [BitVec.extractLsb'_append_eq_of_add_le,
      BitVec.extractLsb'_append_eq_of_le] <;>
    exact BitVec.extractLsb'_eq_self

theorem wordsOfDin_dinOfWords (w : Header) : wordsOfDin (dinOfWords w) = w := by
  ext k hk : 1
  exact (wordsOfDin_getElem (dinOfWords w) ⟨k, hk⟩).trans (dinOfWords_extractLsb' w ⟨k, hk⟩)

/-- Each word's slice begins where the one below it ends, so the six of them join to all of DIN. -/
theorem dinOfWords_wordsOfDin (din : BitVec 96) : dinOfWords (wordsOfDin din) = din := by
  calc dinOfWords (wordsOfDin din)
      = din.extractLsb' 80 16 ++ din.extractLsb' 64 16 ++ din.extractLsb' 48 16 ++
          din.extractLsb' 32 16 ++ din.extractLsb' 16 16 ++ din.extractLsb' 0 16 := rfl
    _ = din.extractLsb' 0 96 := by
      simp only [BitVec.extractLsb'_append_extractLsb'_eq_extractLsb']
    _ = din := BitVec.extractLsb'_eq_self

/-- The codes of 30_encoding.md R65 that R64 gives no command. -/
theorem reservedOp_eq_true {op : BitVec 3} :
    reservedOp op = true ↔ op = 0b110#3 ∨ op = 0b111#3 := by
  revert op; decide

/-- DIN is a don't-care for every code but CONSTRUCT's (30_encoding.md R65). -/
theorem decode_din_irrelevant {op : BitVec 3} (hop : op ≠ 0b000#3) (din din' : BitVec 96) :
    decode ⟨op, din⟩ = decode ⟨op, din'⟩ := by
  unfold decode
  split
  case h_1 heq => exact absurd heq hop
  all_goals rename_i heq; cases heq; rfl

/-- Settles O2: word `i` of DIN is its slice, in both directions, and the six slices are all of DIN. -/
theorem dinPacksTheSixWordsByIndex : Obligations.DinPacksTheSixWordsByIndex :=
  ⟨wordsOfDin_getElem, fun _ => rfl, wordsOfDin_dinOfWords, dinOfWords_wordsOfDin⟩

/-- Settles O1: the decoder's eight arms, with `wordsOfDin` slicing DIN for CONSTRUCT. -/
theorem decoderMapsEveryCode : Obligations.DecoderMapsEveryCode := fun din =>
  ⟨⟨wordsOfDin din, rfl, wordsOfDin_getElem din⟩, rfl, rfl, rfl, rfl, rfl, rfl, rfl⟩

end Sys2Proof

namespace Sys2Proof.Machine

section
variable {s : State} {c c' : RawCommand} {rest : List PortEvent}

/-- While FAULTED = 0 a step performs the command presented first. -/
theorem step_command_of_unfaulted (hf : s.fault = none) (hp : s.port = .command c :: rest) :
    step s = perform (decode c) (s.setPort rest) := by
  rw [step, stepPort, takeEvent_cons hf hp]; rfl

/-- While FAULTED = 1 a step takes the next reset presented, or there is none (60_exceptions.md R146). -/
theorem step_of_faulted {k : Cause} (hf : s.fault = some k) :
    step s =
      (afterReset s.port).elim (.fault .stuck) fun rest => .next (s.setPort rest).takeReset := by
  rw [step, stepPort, takeEvent_faulted hf]
  cases afterReset s.port with
  | none => exact accept_of_faulted hf
  | some rest => rfl

/-- A step sees of a presented command only what it decodes to: with FAULTED = 0 it performs that, and
with FAULTED = 1 it looks past the command for a reset. -/
theorem step_command_congr (hd : decode c = decode c') :
    step (s.setPort (.command c :: rest)) = step (s.setPort (.command c' :: rest)) := by
  cases hf : s.fault with
  | none =>
    rw [step_command_of_unfaulted (s := s.setPort (.command c :: rest)) hf rfl, hd,
      step_command_of_unfaulted (s := s.setPort (.command c' :: rest)) hf rfl]
    rfl
  | some k =>
    rw [step_of_faulted (s := s.setPort (.command c :: rest)) hf,
      step_of_faulted (s := s.setPort (.command c' :: rest)) hf]
    rfl

/-- A reserved code takes ILLEGAL_COMMAND (60_exceptions.md R144). -/
theorem step_reserved (hf : s.fault = none) (hop : reservedOp c.op = true)
    (hp : s.port = .command c :: rest) :
    step s = .next ({ s with port := rest }.withFault .illegalCommand) := by
  rw [step_command_of_unfaulted hf hp, decode_of_reserved hop]
  exact accept_of_unfaulted (s := s.setPort rest) hf

end

/-- Settles O5: a reserved code's step, the decoder on every other code, and a step's seeing of a command
only what it decodes to. -/
theorem encodingClasses : Obligations.EncodingClasses := by
  refine ⟨fun s op din rest hf hop hp => ?reserved, fun op din h6 h7 => ?assigned,
    fun s op din din' rest hop => ?dontCare⟩
  case reserved => exact step_reserved hf (reservedOp_eq_true.mpr hop) hp
  case assigned =>
    have hop : reservedOp op = false :=
      Bool.eq_false_iff.mpr fun h => (reservedOp_eq_true.mp h).elim h6 h7
    obtain ⟨i, hi, -⟩ := decode_of_wf (c := ⟨op, din⟩) (by simp [RawCommand.wf, hop])
    exact ⟨i, hi⟩
  case dontCare => exact step_command_congr (decode_din_irrelevant hop din din')

/-- After a result RESULT carries its code (30_encoding.md R67). -/
theorem State.withResult_resultPort (s : State) (r : Result) :
    (s.withResult r).resultPort = some r.code := by
  simp [State.resultPort, State.withResult, Response.resultPort]

/-- After CONSTRUCT RESULT carries nothing (30_encoding.md R67). -/
theorem State.withConstructed_resultPort (s : State) (w : Header) :
    (s.withConstructed w).resultPort = none := by
  simp [State.resultPort, State.withConstructed, Response.resultPort]

/-- Where the two variants of a one-bit field have the codes 0 and 1, the code of the variant the bit
tells is the bit, zero-extended (30_encoding.md R68). -/
theorem code_oneBit {α : Type} (code : α → Word) {v0 v1 : α} (h0 : code v0 = 0) (h1 : code v1 = 1)
    (w : Word) (k : Nat) :
    code (if w.getLsbD k then v1 else v0) = (w.extractLsb' k 1).setWidth 16 := by
  have bit : ∀ b : BitVec 1, (if b == 1#1 then 1#16 else 0#16) = b.setWidth 16 := by decide
  rw [apply_ite code, h0, h1, BitVec.getLsbD_eq_extractLsb']
  exact bit _

/-- The code of an OPCODE value's variant is the value up to 2, and 3 from there on (30_encoding.md
R68). -/
theorem operationOf_code (v : BitVec 3) : (operationOf v).code.toNat = min v.toNat 3 := by
  revert v; decide

/-- Settles O23: an accessor over a header delivers the result of its closed form, whose code is read off
the field's bits. -/
theorem resultPortCarriesTheCode : Obligations.ResultPortCarriesTheCode := by
  refine ⟨by decide, fun s w hf => ?construct, fun s h hf hh => ⟨?identifier, ?direction, ?operation,
    ?authoritative, ?truncated⟩⟩
  case construct =>
    exact ⟨_, exec_construct_unfaulted w hf, s.withConstructed_resultPort w⟩
  case identifier =>
    exact ⟨_, exec_accessor_loaded rfl hf hh rfl, s.withResult_resultPort _⟩
  case direction =>
    exact ⟨_, _, exec_accessor_loaded rfl hf hh rfl, code_oneBit Direction.code rfl rfl h[1] 0, rfl,
      s.withResult_resultPort _⟩
  case operation =>
    refine ⟨_, _, exec_accessor_loaded rfl hf hh rfl, ?_, rfl, s.withResult_resultPort _⟩
    rw [← operationOf_eq, operationOf_code]
  case authoritative =>
    exact ⟨_, _, exec_accessor_loaded rfl hf hh rfl, code_oneBit Authority.code rfl rfl h[1] 4, rfl,
      s.withResult_resultPort _⟩
  case truncated =>
    exact ⟨_, _, exec_accessor_loaded rfl hf hh rfl, code_oneBit Truncation.code rfl rfl h[1] 5, rfl,
      s.withResult_resultPort _⟩

end Sys2Proof.Machine


/-! SUPPORT. The construction family (40_construct.md): what CONSTRUCT's transaction decodes to, what its
next state shows in VALID, FAULTED and CAUSE, and the proofs of the family's statements. -/

namespace Sys2Proof.Machine

/-- CONSTRUCT's transaction gives back the words packed into its DIN (30_encoding.md R62, R64). -/
theorem decode_dinOfWords (w : Header) : decode ⟨0b000#3, dinOfWords w⟩ = .instr (.construct w) :=
  congrArg (fun w' => Command.instr (.construct w')) (wordsOfDin_dinOfWords w)

@[simp] theorem State.withConstructed_valid (s : State) (w : Header) :
    (s.withConstructed w).valid = 1#1 := rfl

@[simp] theorem State.withConstructed_faulted (s : State) (w : Header) :
    (s.withConstructed w).faulted = s.faulted := rfl

@[simp] theorem State.withConstructed_cause (s : State) (w : Header) :
    (s.withConstructed w).cause = s.cause := rfl

/-- Settles O10: the packed words decode back to themselves, acceptance is CONSTRUCT's only check, and the
views of its next state are read off the fields it writes. -/
theorem constructLoadsTheSixWords : Obligations.ConstructLoadsTheSixWords := fun w s =>
  ⟨decode_dinOfWords w, fun _ => exec_of_faulted (.construct w), exec_construct_unfaulted w,
    s.withConstructed_word w, s.withConstructed_valid w, s.withConstructed_faulted w,
    s.withConstructed_cause w, s.withConstructed_resultPort w⟩

/-- Settles O11: CONSTRUCT's next state does not see the header it replaces, so it is the one reached from
no header. -/
theorem constructReplacesTheWholeHeader : Obligations.ConstructReplacesTheWholeHeader := by
  intro s h w hf _
  refine ⟨s.withConstructed w, exec_construct_unfaulted w hf, rfl, ?_⟩
  rw [exec_construct_unfaulted w (s := { s with hdr := none }) hf, State.withConstructed_of_hdr]

end Sys2Proof.Machine

/-! SUPPORT. The identifier family (41_identifier.md): the proof of the family's statement. -/

namespace Sys2Proof.Machine

/-- Settles O13: IDENTIFIER is an accessor, so it makes every accessor's checks, and the closed form of its
response over a header is word 0. -/
theorem identifierReturnsWordZero : Obligations.IdentifierReturnsWordZero := by
  refine fun s => ⟨fun din => ?decodes, fun c hf => ?faulted, fun hf hh => ?noHeader,
    fun h hf hh => ?loaded⟩
  case decodes => rfl
  case faulted => exact exec_of_faulted .identifier hf
  case noHeader => exact exec_accessor_noHeader rfl hf hh
  case loaded =>
    have hword : specResponse .identifier h = .result (.identifier h[0]) := rfl
    exact exec_accessor_loaded rfl hf hh hword

end Sys2Proof.Machine

/-! SUPPORT. The flag accessor family (42_flags_decode.md): what the datapath's value tells each accessor
over a header, the kept INTERNAL_CONSISTENCY arm, and the proofs of the family's statements. -/

namespace Sys2Proof.Machine

/-- OPERATION's 16-bit value is the number in bits 3:1, since it lies in the row's width
(42_flags_decode.md R102) and narrowing drops nothing. -/
theorem rowOperation_value_toNat (h : Header) :
    (rowOperation.value h).toNat = (h[1].extractLsb' 1 3).toNat := by
  have hlt : (rowOperation.value h).toNat < 2 ^ 3 := row_value_lt h rowOperation (by simp)
  rw [← rowOperation_value, BitVec.toNat_setWidth, Nat.mod_eq_of_lt hlt]

/-- The variants of 42_flags_decode.md R104 by the value as a number. -/
theorem operationOf_cases (v : BitVec 3) :
    (v.toNat = 0 → operationOf v = .QUERY) ∧ (v.toNat = 1 → operationOf v = .INVERSE_QUERY) ∧
    (v.toNat = 2 → operationOf v = .STATUS) ∧ (3 ≤ v.toNat → operationOf v = .RESERVED) := by
  revert v; decide

section
variable {s : State} {h : Header} {v : Word}

/-- OPERATION over a header delivers the variant of bits 3:1. -/
theorem exec_operation_loaded (hf : s.fault = none) (hh : s.hdr = some h) :
    exec .operation s = .next (s.withResult (.operation (operationOf (h[1].extractLsb' 1 3)))) := by
  rw [operationOf_eq]
  exact exec_accessor_loaded rfl hf hh rfl

/-- AUTHORITATIVE over a header goes on with the datapath's value (42_flags_decode.md R105). -/
theorem exec_authoritative_finish (hf : s.fault = none) (hh : s.hdr = some h) :
    exec .authoritative s = finishAuthoritative (rowAuthoritative.value h) s := by
  rw [exec, execAuthoritative, accept_of_unfaulted hf, withHeader_some hh]

/-- TRUNCATED over a header goes on with the datapath's value (42_flags_decode.md R106). -/
theorem exec_truncated_finish (hf : s.fault = none) (hh : s.hdr = some h) :
    exec .truncated s = finishTruncated (rowTruncated.value h) s := by
  rw [exec, execTruncated, accept_of_unfaulted hf, withHeader_some hh]

/-- AUTHORITATIVE's consistency check (42_flags_decode.md R105). -/
theorem finishAuthoritative_inconsistent (h0 : v ≠ 0) (h1 : v ≠ 1) :
    finishAuthoritative v s = .next (s.withFault .internalConsistency) := by
  rw [finishAuthoritative, authorityOf_eq_none.mpr ⟨h0, h1⟩]; rfl

/-- TRUNCATED's consistency check (42_flags_decode.md R106). -/
theorem finishTruncated_inconsistent (h0 : v ≠ 0) (h1 : v ≠ 1) :
    finishTruncated v s = .next (s.withFault .internalConsistency) := by
  rw [finishTruncated, truncationOf_eq_none.mpr ⟨h0, h1⟩]; rfl

end

/-- Settles O14: DIRECTION makes every accessor's checks, and its row masks bit 0, which tells the
variant. -/
theorem directionDecodesQr : Obligations.DirectionDecodesQr := by
  refine fun s => ⟨fun din => ?decodes, fun c hf => ?faulted, fun hf hh => ?noHeader,
    fun h hf hh => ⟨?value, ?result⟩⟩
  case decodes => rfl
  case faulted => exact exec_of_faulted .direction hf
  case noHeader => exact exec_accessor_noHeader rfl hf hh
  case value => exact rowDirection_value h
  case result => exact exec_accessor_loaded rfl hf hh rfl

/-- Settles O15: OPERATION's value is the number in bits 3:1, and its variant is the one R104 gives that
number. -/
theorem operationDecodesOpcode : Obligations.OperationDecodesOpcode := by
  refine fun s => ⟨fun din => ?decodes, fun c hf => ?faulted, fun hf hh => ?noHeader,
    fun h hf hh => ?loaded⟩
  case decodes => rfl
  case faulted => exact exec_of_faulted .operation hf
  case noHeader => exact exec_accessor_noHeader rfl hf hh
  case loaded =>
    have hnum := rowOperation_value_toNat h
    obtain ⟨hquery, hinverse, hstatus, hreserved⟩ := operationOf_cases (h[1].extractLsb' 1 3)
    rw [exec_operation_loaded hf hh]
    intro v hv
    obtain rfl := hnum.symm.trans hv
    exact ⟨rfl, Nat.le_of_lt_succ (h[1].extractLsb' 1 3).isLt, fun h0 => by rw [hquery h0],
      fun h1 => by rw [hinverse h1], fun h2 => by rw [hstatus h2], fun h3 => by rw [hreserved h3]⟩

/-- Settles O16: AUTHORITATIVE's row masks bit 4, so the value it goes on with is 0 or 1, and only another
value would have no variant. -/
theorem authoritativeDecodesAa : Obligations.AuthoritativeDecodesAa := by
  refine fun s => ⟨fun din => ?decodes, fun c hf => ?faulted, fun hf hh => ?noHeader,
    fun h hf hh => ⟨?goesOn, ?value, ?result⟩, fun v h0 h1 => ?inconsistent⟩
  case decodes => rfl
  case faulted => exact exec_of_faulted .authoritative hf
  case noHeader => exact exec_accessor_noHeader rfl hf hh
  case goesOn => exact exec_authoritative_finish hf hh
  case value => exact rowAuthoritative_value h
  case result => exact exec_accessor_loaded rfl hf hh rfl
  case inconsistent => exact finishAuthoritative_inconsistent h0 h1

/-- Settles O17: TRUNCATED's row masks bit 5, so the value it goes on with is 0 or 1, and only another
value would have no variant. -/
theorem truncatedDecodesTc : Obligations.TruncatedDecodesTc := by
  refine fun s => ⟨fun din => ?decodes, fun c hf => ?faulted, fun hf hh => ?noHeader,
    fun h hf hh => ⟨?goesOn, ?value, ?result⟩, fun v h0 h1 => ?inconsistent⟩
  case decodes => rfl
  case faulted => exact exec_of_faulted .truncated hf
  case noHeader => exact exec_accessor_noHeader rfl hf hh
  case goesOn => exact exec_truncated_finish hf hh
  case value => exact rowTruncated_value h
  case result => exact exec_accessor_loaded rfl hf hh rfl
  case inconsistent => exact finishTruncated_inconsistent h0 h1

end Sys2Proof.Machine

/-! SUPPORT. The exceptions family (60_exceptions.md): the state a fault leaves, what a performed command
can fault with, what a faulted block still does, and the proofs of the family's statements. -/

namespace Sys2Proof

/-- The codes 1 to 5 are the accessors' (30_encoding.md R64). -/
theorem decode_accessor {c : RawCommand} (h1 : 1 ≤ c.op.toNat) (h5 : c.op.toNat ≤ 5) :
    ∃ i, decode c = .instr i ∧ i.isAccessor = true := by
  have hassigned : ∀ op : BitVec 3, op.toNat ≤ 5 → reservedOp op = false := by decide
  obtain ⟨i, hi, hop⟩ := decode_of_wf (c := c) (by simp [RawCommand.wf, hassigned c.op h5])
  refine ⟨i, hi, ?_⟩
  cases i with
  | construct w => rw [← hop] at h1; cases h1
  | _ => rfl

end Sys2Proof

namespace Sys2Proof.Machine

section
variable {i : Instr} {s t : State} {c : Cause} {v : Word}

/-- `raise` leaves the state 60_exceptions.md R145 writes out. -/
theorem raise_eq_withFault (c : Cause) (s : State) : raise c s = .next (s.withFault c) := rfl

@[simp] theorem State.withFault_faulted (s : State) (c : Cause) : (s.withFault c).faulted = 1#1 := rfl

@[simp] theorem State.withFault_cause (s : State) (c : Cause) : (s.withFault c).cause = c.code := rfl

@[simp] theorem State.withFault_word (s : State) (c : Cause) (k : Fin 6) :
    (s.withFault c).word k = s.word k := rfl

@[simp] theorem State.withFault_valid (s : State) (c : Cause) : (s.withFault c).valid = s.valid := rfl

/-- After a fault RESULT carries nothing (60_exceptions.md R145). -/
theorem State.withFault_resultPort (s : State) (c : Cause) :
    (s.withFault c).resultPort = none := by
  simp [State.resultPort, State.withFault, Response.resultPort]

/-- A fault responds otherwise than a result does (30_encoding.md R61). -/
theorem State.withResult_ne_withFault (s : State) (r : Result) (c : Cause) :
    s.withResult r ≠ s.withFault c := by
  simp [State.withResult, State.withFault]

/-- AUTHORITATIVE's last part delivers the value's variant, if it has one (42_flags_decode.md R105). -/
theorem finishAuthoritative_of_variant {a : Authority} (ha : authorityOf v = some a) :
    finishAuthoritative v s = .next (s.withResult (.authority a)) := by
  rw [finishAuthoritative, ha]; rfl

/-- TRUNCATED's last part delivers the value's variant, if it has one (42_flags_decode.md R106). -/
theorem finishTruncated_of_variant {u : Truncation} (hu : truncationOf v = some u) :
    finishTruncated v s = .next (s.withResult (.truncation u)) := by
  rw [finishTruncated, hu]; rfl

theorem finishAuthoritative_faults_iff :
    finishAuthoritative v s = .next (s.withFault .internalConsistency) ↔ v ≠ 0 ∧ v ≠ 1 := by
  refine ⟨fun h => ?_, fun ⟨h0, h1⟩ => finishAuthoritative_inconsistent h0 h1⟩
  rw [← authorityOf_eq_none, Option.eq_none_iff_forall_ne_some]
  intro a ha
  rw [finishAuthoritative_of_variant ha, Host.Outcome.next.injEq] at h
  exact s.withResult_ne_withFault _ _ h

theorem finishTruncated_faults_iff :
    finishTruncated v s = .next (s.withFault .internalConsistency) ↔ v ≠ 0 ∧ v ≠ 1 := by
  refine ⟨fun h => ?_, fun ⟨h0, h1⟩ => finishTruncated_inconsistent h0 h1⟩
  rw [← truncationOf_eq_none, Option.eq_none_iff_forall_ne_some]
  intro u hu
  rw [finishTruncated_of_variant hu, Host.Outcome.next.injEq] at h
  exact s.withResult_ne_withFault _ _ h

/-- A field of one bit has the value 0 or 1 (42_flags_decode.md R109). -/
theorem extract_oneBit_zero_or_one (w : Word) (k : Nat) (hk : k < 16) :
    extract w (BitVec.ofNat 16 (2 ^ k)) k = 0 ∨ extract w (BitVec.ofNat 16 (2 ^ k)) k = 1 := by
  rw [extract_oneBit w k hk]
  cases w.getLsbD k with
  | false => exact .inl rfl
  | true => exact .inr rfl

/-- The one way an instruction ends faulted: an accessor finds no header (60_exceptions.md R143). -/
theorem exec_next_faulted (h : exec i s = .next t) (hc : t.fault = some c) :
    c = .noHeader ∧ i.isAccessor = true ∧ s.hdr = none ∧ t = s.withFault c := by
  obtain ⟨hf, ⟨w, -, rfl⟩ | ⟨ha, hh, rfl⟩ | ⟨w, -, -, rfl⟩⟩ := exec_cases h
  case inl => exact absurd (hf.symm.trans hc) (by simp)
  case inr.inl => cases hc; exact ⟨rfl, ha, hh, rfl⟩
  case inr.inr => exact absurd (hf.symm.trans hc) (by simp)

/-- The causes a performed command can record (60_exceptions.md R142 to R144). -/
theorem perform_next_cause {r : RawCommand} (h : perform (decode r) s = .next t)
    (hc : t.fault = some c) : c = .noHeader ∨ c = .illegalCommand := by
  obtain ⟨i, -, hi⟩ | ⟨-, -, rfl⟩ := perform_cases h
  case inl => exact .inl (exec_next_faulted hi hc).1
  case inr => cases hc; exact .inr rfl

/-- The acceptance check comes before all others, for the reserved codes too (60_exceptions.md R147). -/
theorem perform_of_faulted (cmd : Command) (hf : s.fault = some c) :
    perform cmd s = .fault .stuck := by
  cases cmd with
  | instr i => exact exec_of_faulted i hf
  | illegal op => exact accept_of_faulted hf

/-- An accepted reserved code raises ILLEGAL_COMMAND (60_exceptions.md R144). -/
theorem perform_reserved {r : RawCommand} (hop : r.op = 0b110#3 ∨ r.op = 0b111#3)
    (hf : s.fault = none) : perform (decode r) s = .next (s.withFault .illegalCommand) := by
  rw [decode_of_reserved (reservedOp_eq_true.mpr hop)]
  exact accept_of_unfaulted hf

/-- With no reset presented, there is nothing to look past the commands for. -/
theorem afterReset_eq_none {es : List PortEvent} (h : ∀ e ∈ es, e ≠ .reset) :
    afterReset es = none := by
  induction es with
  | nil => rfl
  | cons e rest ih =>
    obtain ⟨he, hrest⟩ := List.forall_mem_cons.mp h
    cases e with
    | command c => exact ih hrest
    | reset => exact absurd rfl he

/-- With no reset presented, a faulted block has no step (60_exceptions.md R146). -/
theorem step_faulted_stuck (hf : s.fault = some c) (hp : ∀ e ∈ s.port, e ≠ .reset) :
    step s = .fault .stuck := by
  rw [step_of_faulted hf, afterReset_eq_none hp]; rfl

/-- A faulted block takes the reset first at its port (60_exceptions.md R146). -/
theorem step_faulted_reset {rest : List PortEvent} (hf : s.fault = some c)
    (hp : s.port = .reset :: rest) : step s = .next (s.setPort rest).takeReset := by
  rw [step_of_faulted hf, hp]; rfl

/-- STATUS bit 1 is FAULTED (10_state.md R29). -/
theorem State.status_extractLsb'_of_faulted (hf : s.fault = some c) :
    s.status.extractLsb' 1 1 = 1#1 := by
  have hbit := s.status_getLsbD_one
  rw [BitVec.getLsbD_eq_extractLsb', hf] at hbit
  exact eq_of_beq hbit

end

/-- Settles O25: an instruction's fault is the accessors' NO_HEADER; the reserved codes and the kept
consistency checks each raise their own cause. -/
theorem causesAreRaisedAsListed : Obligations.CausesAreRaisedAsListed := by
  refine ⟨by decide, fun op din s hop hf => ?illegalCommand, fun i s ha hf hh => ?noHeader,
    fun v s h0 h1 => ?internalConsistency, fun i s t c h hc => ?noOther⟩
  case illegalCommand => exact perform_reserved (r := ⟨op, din⟩) hop hf
  case noHeader => exact exec_accessor_noHeader ha hf hh
  case internalConsistency =>
    exact ⟨finishAuthoritative_inconsistent h0 h1, finishTruncated_inconsistent h0 h1⟩
  case noOther =>
    obtain ⟨hcause, ha, hh, ht⟩ := exec_next_faulted h hc
    exact ⟨.inl ⟨hcause, ha, hh⟩, ht⟩

/-- Settles O26: the consistency checks fail only outside 0 and 1, a one-bit field has no such value, and
the causes that a performed command records are the other two. -/
theorem internalConsistencyIsNeverRaised : Obligations.InternalConsistencyIsNeverRaised := by
  refine ⟨fun v s => ⟨finishAuthoritative_faults_iff, finishTruncated_faults_iff⟩,
    fun w => ⟨?authoritative, ?truncated⟩, fun c s t h hc => ?never⟩
  case authoritative => exact extract_oneBit_zero_or_one w 4 (by decide)
  case truncated => exact extract_oneBit_zero_or_one w 5 (by decide)
  case never => exact absurd (perform_next_cause h hc) (by decide)

/-- Settles O27: one lemma per check, each met with the checks before it passed. -/
theorem checksAreMadeInOrder : Obligations.ChecksAreMadeInOrder := by
  rintro ⟨op, din⟩ s
  refine ⟨fun k hf => ?accepted, fun hf hop => ?reserved, fun hf h1 h5 hh => ?noHeader,
    fun h hf hh hop => ?authoritative, fun h hf hh hop => ?truncated, fun v h0 h1 => ?consistency,
    fun h hf hh h1 h5 => ?delivers, fun hf hop => ?constructs⟩
  case accepted => exact perform_of_faulted _ hf
  case reserved => exact perform_reserved hop hf
  case noHeader =>
    obtain ⟨i, hi, ha⟩ := decode_accessor h1 h5
    rw [hi]
    exact exec_accessor_noHeader ha hf hh
  case authoritative => cases hop; exact exec_authoritative_finish hf hh
  case truncated => cases hop; exact exec_truncated_finish hf hh
  case consistency =>
    exact ⟨finishAuthoritative_inconsistent h0 h1, finishTruncated_inconsistent h0 h1⟩
  case delivers =>
    obtain ⟨i, hi, ha⟩ := decode_accessor h1 h5
    obtain ⟨r, hr⟩ := specResponse_accessor ha h
    rw [hi]
    exact ⟨r, exec_accessor_loaded ha hf hh hr⟩
  case constructs => cases hop; exact exec_construct_unfaulted (wordsOfDin din) hf

/-- Settles O28: nothing is accepted while FAULTED = 1, and a step can then only take a reset. -/
theorem faultedBlockIsStuckUntilReset : Obligations.FaultedBlockIsStuckUntilReset := by
  refine fun s k hf => ⟨fun i => ?instruction, fun c => ?command, fun c rest hp hrest => ?stuck,
    fun rest hp => ?reset, ⟨?faulted, ?cause⟩, fun es hend => ?endsBadly⟩
  case instruction => exact exec_of_faulted i hf
  case command => exact perform_of_faulted _ hf
  case stuck =>
    refine step_faulted_stuck hf ?_
    rw [hp]
    exact List.forall_mem_cons.mpr ⟨nofun, hrest⟩
  case reset => exact ⟨_, step_faulted_reset hf hp, rfl, rfl, rfl⟩
  case faulted => exact State.status_extractLsb'_of_faulted hf
  case cause => rw [State.status_extractLsb'_cause, State.cause_of_faulted hf]
  case endsBadly => rw [EndsWell, hend, hf]; nofun

/-- Settles O24: the fields and the views of the state that `raise` leaves. -/
theorem faultEntryRecordsOnlyTheCause : Obligations.FaultEntryRecordsOnlyTheCause := fun c s _ =>
  ⟨s.withFault c, raise_eq_withFault c s, s.withFault_faulted c, s.withFault_cause c,
    s.withFault_word c, s.withFault_valid c, rfl, rfl, s.withFault_resultPort c⟩

end Sys2Proof.Machine

/-! SUPPORT. The reset and hazards family (70_reset_and_hazards.md): which events a step takes from the port,
what a reset leaves, and the proofs of the family's statements. -/

namespace Sys2Proof.Machine

section
variable {s s' t : State} {e : PortEvent} {rest : List PortEvent}

/-- A step performs the event it takes. -/
theorem step_of_takeEvent (he : takeEvent s = some (e, s')) : step s = performEvent e s' := by
  rw [step, stepPort, he]

/-- A reset first at the port is taken in every state (70_reset_and_hazards.md R170). -/
theorem takeEvent_reset_first (hp : s.port = .reset :: rest) :
    takeEvent s = some (.reset, s.setPort rest) := by
  cases hf : s.fault with
  | none => exact takeEvent_cons hf hp
  | some c => rw [takeEvent_faulted hf, hp]; rfl

/-- A step that takes a reset leaves no header and no fault (70_reset_and_hazards.md R170). -/
theorem step_next_of_reset (he : takeEvent s = some (.reset, s')) (h : step s = .next t) :
    t.hdr = none ∧ t.fault = none := by
  rw [step_of_takeEvent he] at h
  cases h
  exact ⟨rfl, rfl⟩

/-- A port with something behind its next reset holds that reset. -/
theorem reset_mem_of_afterReset {es : List PortEvent} (h : afterReset es = some rest) :
    PortEvent.reset ∈ es := by
  by_contra hmem
  rw [afterReset_eq_none fun e he hreset => hmem (hreset ▸ he)] at h
  cases h

/-- The block takes only what the host presented. -/
theorem mem_port_of_takeEvent (he : takeEvent s = some (e, s')) : e ∈ s.port := by
  cases hf : s.fault with
  | none =>
    cases hp : s.port with
    | nil => rw [takeEvent_nil hf hp] at he; cases he
    | cons e' rest =>
      rw [takeEvent_cons hf hp] at he
      cases he
      exact List.mem_cons_self
  | some c =>
    rw [takeEvent_faulted hf] at he
    obtain ⟨rest, ha, hr⟩ := Option.map_eq_some_iff.mp he
    cases hr
    exact reset_mem_of_afterReset ha

/-- A step that takes no reset keeps a recorded fault and keeps VALID set (70_reset_and_hazards.md R171). -/
theorem step_takes_reset_or_keeps (h : step s = .next t) :
    (∃ s', takeEvent s = some (.reset, s')) ∨
    ((∀ c, s.fault = some c → t.fault = some c) ∧ (∀ w, s.hdr = some w → t.hdr ≠ none)) := by
  obtain ⟨hh, hf⟩ | ⟨din, rest, -, hf, hw⟩ | ⟨hh, hf, -⟩ | ⟨s', he, -⟩ := step_envelope h
  case inl => exact .inr ⟨fun c hc => hf.trans hc, fun w hs => by simp [hh, hs]⟩
  case inr.inl => exact .inr ⟨by simp [hf], by simp [hw]⟩
  case inr.inr.inl => exact .inr ⟨by simp [hf], fun w hs => by simp [hh, hs]⟩
  case inr.inr.inr => exact .inl ⟨s', he⟩

end

/-- Settles O32: a step that takes no reset keeps both, and one that takes it took what was presented. -/
theorem onlyResetClearsFaultAndValid : Obligations.OnlyResetClearsFaultAndValid := by
  intro s t h hcleared
  obtain ⟨s', he⟩ | ⟨hkeepsFault, hkeepsValid⟩ := step_takes_reset_or_keeps h
  case inl => exact ⟨s', he, mem_port_of_takeEvent he, step_next_of_reset he h⟩
  case inr =>
    obtain ⟨c, hc, hne⟩ | ⟨w, hw, hnone⟩ := hcleared
    · exact absurd (hkeepsFault c hc) hne
    · exact absurd hnone (hkeepsValid w hw)

/-- Settles O31: the reset is performed on the state with the port moved past it, and an accessor then
finds no header. -/
theorem resetIsTakenInEveryState : Obligations.ResetIsTakenInEveryState := fun s rest hp =>
  ⟨(s.setPort rest).takeReset, step_of_takeEvent (takeEvent_reset_first hp), rfl, rfl,
    State.status_eq _, fun _ => rfl, rfl, fun _ ha => exec_accessor_noHeader ha rfl rfl⟩

end Sys2Proof.Machine

/-! SUPPORT. The encoder and the decoder together (30_encoding.md): decoding undoes encoding, which
transactions decode to an instruction, and the proofs of those statements. -/

namespace Sys2Proof

/-- The decoder undoes the encoder: CONSTRUCT's words come back out of DIN (30_encoding.md R62), and no
other command has an operand (R63). -/
theorem decode_encode (i : Instr) : decode (encode i) = .instr i := by
  cases i with
  | construct w => exact Machine.decode_dinOfWords w
  | _ => rfl

theorem decode_encodeCommand {c : Command} (h : c.wf = true) : decode (encodeCommand c) = c := by
  cases c with
  | instr i => exact decode_encode i
  | illegal op => exact decode_of_reserved (c := ⟨op, 0⟩) h

/-- CONSTRUCT's code alone gives DIN a meaning (30_encoding.md R63, R65). -/
theorem din_of_decode {c : RawCommand} {i : Instr} (h : decode c = .instr i) (hop : c.op = 0b000#3) :
    c.din = dinOf i := by
  have hcode : opOf i = 0b000#3 := (decode_instr h).2.trans hop
  cases i with
  | construct w =>
    obtain ⟨-, rfl⟩ := decode_eq_construct h
    exact (dinOfWords_wordsOfDin c.din).symm
  | _ => cases hcode

/-- A transaction with the code of `i`, and with its data if that code is CONSTRUCT's, decodes as the
encoder's transaction of `i` does. -/
theorem decode_of_op_din {c : RawCommand} {i : Instr} (hop : c.op = opOf i)
    (hdin : c.op = 0b000#3 → c.din = dinOf i) : decode c = .instr i := by
  obtain ⟨op, din⟩ := c
  obtain rfl : op = opOf i := hop
  rw [← decode_encode i]
  by_cases h0 : opOf i = 0b000#3
  case pos => exact congrArg (fun d => decode ⟨opOf i, d⟩) (hdin h0)
  case neg => exact decode_din_irrelevant h0 din (dinOf i)

/-- Settles O3: an instruction's words and a reserved code both come back from their transactions. -/
theorem decodeOfEncodeIsTheInstruction : Obligations.DecodeOfEncodeIsTheInstruction :=
  ⟨fun i _ => decode_encode i, fun _ => decode_encodeCommand⟩

/-- Settles O4: the code is read off what is decoded, and DIN only under CONSTRUCT's code. -/
theorem decodesExactlyItsTransactions : Obligations.DecodesExactlyItsTransactions := fun _ _ =>
  ⟨fun h => ⟨(decode_instr h).2.symm, din_of_decode h⟩,
    fun ⟨hop, hdin⟩ => decode_of_op_din hop hdin⟩

theorem eq_instr_of_instr?_eq_some {c : Command} {i : Instr} (h : c.instr? = some i) : c = .instr i := by
  cases c with
  | instr j => exact congrArg Command.instr (Option.some.inj h)
  | illegal op => cases h

end Sys2Proof

/-! SUPPORT. The invariant on STATUS and the last response (10_state.md R29): it holds without a fault and
after each fault that a performed command takes, so that every step keeps it. -/

namespace Sys2Proof.Machine

section
variable {s t : State} {c : Cause}

/-- Without a fault STATUS is VALID alone, 0x0 or 0x1. -/
theorem State.inv_of_unfaulted (hf : s.fault = none) : s.Inv := by
  refine ⟨?_, by simp [hf]⟩
  rw [State.status_eq, hf]
  cases s.hdr <;> simp

/-- The faults a block can take leave STATUS at 0x6, 0x7 or 0xA, and the fault is the last response. -/
theorem State.withFault_inv (hc : c = .illegalCommand ∨ c = .noHeader ∧ s.hdr = none) :
    (s.withFault c).Inv := by
  refine ⟨?_, fun c' hc' => ?_⟩
  · rw [State.status_eq]
    obtain rfl | ⟨rfl, hh⟩ := hc
    · cases hh : s.hdr <;> simp [State.withFault, hh]
    · simp [State.withFault, hh]
  · cases hc'
    exact List.getLast?_concat

/-- A performed command leads into the invariant from any state: its faults are NO_HEADER without a
header and ILLEGAL_COMMAND (60_exceptions.md R142 to R144). -/
theorem perform_next_inv {r : RawCommand} (h : perform (decode r) s = .next t) : t.Inv := by
  obtain ⟨i, -, hi⟩ | ⟨-, -, rfl⟩ := perform_cases h
  case inr => exact State.withFault_inv (.inl rfl)
  cases hf : t.fault with
  | none => exact State.inv_of_unfaulted hf
  | some c =>
    obtain ⟨rfl, -, hh, rfl⟩ := exec_next_faulted hi hf
    exact State.withFault_inv (.inr ⟨rfl, hh⟩)

end

/-- Settles O35: a step waits, takes a reset and so clears the fault, or performs a command. -/
theorem everyStepKeepsTheStatusInvariant : Obligations.EveryStepKeepsTheStatusInvariant := by
  intro s t hs h
  obtain ⟨-, -, rfl⟩ | ⟨s', -, rfl⟩ | ⟨c, rest, -, -, ht⟩ := step_cases h
  · exact hs
  · exact State.inv_of_unfaulted rfl
  · exact perform_next_inv ht

/-- Settles O36: after reset FAULTED is 0. -/
theorem resetMeetsTheStatusInvariant : Obligations.ResetMeetsTheStatusInvariant :=
  State.inv_of_unfaulted rfl

/-- Settles O30: the fields of the reset state, and STATUS by them. -/
theorem resetStateHoldsNoHeader : Obligations.ResetStateHoldsNoHeader :=
  ⟨rfl, rfl, fun _ => rfl, rfl, rfl, rfl, State.status_eq State.reset⟩

end Sys2Proof.Machine

/-! SUPPORT. Frames, fields and single steps: what CONSTRUCT and the accessors leave unchanged, the slice the
mask-and-shift unit answers (42_flags_decode.md section 1), and the step that performs one event. -/

namespace Sys2Proof.Machine

theorem exec_construct_next {w : Header} {s t : State} (h : exec (.construct w) s = .next t) :
    t = s.withConstructed w := by
  obtain ⟨hf, -⟩ := exec_cases h
  rw [exec_construct_unfaulted w hf] at h
  cases h
  rfl

/-- Settles O12: CONSTRUCT's next state is written out field by field. -/
theorem constructFrame : Obligations.ConstructFrame := by
  intro w s t h
  obtain rfl := exec_construct_next h
  exact ⟨s.withConstructed_word w, rfl, rfl, rfl⟩

/-- Settles O19: an accessor only responds over a header, and only faults without one. -/
theorem accessorFrame : Obligations.AccessorFrame := by
  intro i s t ha h
  obtain ⟨-, ⟨w, rfl, -⟩ | ⟨-, hh, rfl⟩ | ⟨w, -, hh, rfl⟩⟩ := exec_cases h
  case inl => cases ha
  case inr.inl =>
    exact ⟨fun _ => rfl, rfl, rfl, ⟨_, rfl⟩, fun _ hs => (nomatch hh.symm.trans hs),
      fun _ => rfl⟩
  case inr.inr =>
    exact ⟨fun _ => rfl, rfl, rfl, ⟨_, rfl⟩, fun _ _ => rfl,
      fun hs => (nomatch hh.symm.trans hs)⟩

/-- Settles O21: each flag accessor's closed form reads the header through its field alone. -/
theorem flagAccessorsReadOnlyTheirField : Obligations.FlagAccessorsReadOnlyTheirField := by
  intro s s' h h' hf hf' hh hh'
  have sameResult (i : Instr) (ha : i.isAccessor = true)
      (heq : specResponse i h = specResponse i h') :=
    exec_accessor_same_result ha hf hf' hh hh' heq
  exact ⟨fun hbit => sameResult .direction rfl (by simp only [specResponse, hbit]),
    fun hbits => sameResult .operation rfl (by simp only [specResponse, hbits]),
    fun hbit => sameResult .authoritative rfl (by simp only [specResponse, hbit]),
    fun hbit => sameResult .truncated rfl (by simp only [specResponse, hbit])⟩

/-- The mask of a field of width `n` at bit `b` is set at the field's bits and nowhere else. -/
theorem fieldMask_getLsbD {n b : Nat} (hw : b + n ≤ 16) (j : Nat) :
    (BitVec.ofNat 16 ((2 ^ n - 1) * 2 ^ b)).getLsbD j = decide (b ≤ j ∧ j < b + n) := by
  rw [BitVec.getLsbD_ofNat, Nat.testBit_mul_two_pow, Nat.testBit_two_pow_sub_one, Bool.eq_iff_iff]
  simp only [Bool.and_eq_true, decide_eq_true_iff]
  omega

/-- The mask-and-shift unit answers the field's slice (42_flags_decode.md R102). -/
theorem extract_field (w : Word) {n b : Nat} (hw : b + n ≤ 16) :
    extract w (BitVec.ofNat 16 ((2 ^ n - 1) * 2 ^ b)) b = (w.extractLsb' b n).setWidth 16 := by
  ext i hi
  rw [extract_getElem _ _ _ _ hi, fieldMask_getLsbD hw, BitVec.getElem_setWidth,
    BitVec.getLsbD_extractLsb', Bool.and_comm]
  simp

/-- Settles O22: bit by bit the unit answers the slice, whose value its width bounds. -/
theorem extractAnswersTheFieldSlice : Obligations.ExtractAnswersTheFieldSlice := by
  intro w n b hw
  refine ⟨extract_field w hw, ?_⟩
  rw [extract_field w hw, BitVec.toNat_setWidth]
  exact (Nat.mod_le _ _).trans_lt (w.extractLsb' b n).isLt

section
variable {s : State} {c : RawCommand} {i : Instr} {rest : List PortEvent}

theorem step_instr (hf : s.fault = none) (hp : s.port = .command c :: rest)
    (hd : decode c = .instr i) : step s = exec i (s.setPort rest) := by
  rw [step_command_of_unfaulted hf hp, hd]; rfl

/-- A command presented before anything else is performed with the port as it was before. -/
theorem step_present_command (hf : s.fault = none) (hd : decode c = .instr i) :
    step (s.present (.command c)) = exec i s :=
  step_instr (s := s.present (.command c)) hf rfl hd

theorem step_idle (hf : s.fault = none) (hp : s.port = []) : step s = .next s := by
  rw [step, stepPort, takeEvent_nil hf hp]
  exact accept_of_unfaulted hf

/-- The next reset stands behind the commands before it. -/
theorem afterReset_commands (cs : List RawCommand) (rest : List PortEvent) :
    afterReset (cs.map .command ++ .reset :: rest) = some rest := by
  induction cs with
  | nil => rfl
  | cons c cs ih => exact ih

end

/-- Settles O8: the command first at the port is taken and its instruction performed. -/
theorem stepRunsTheDecodedInstruction : Obligations.StepRunsTheDecodedInstruction :=
  fun _ _ _ _ => step_instr

/-- Settles O9: an unfaulted block with nothing to take waits. -/
theorem idleBlockWaits : Obligations.IdleBlockWaits := fun _ => step_idle

/-- Settles O6: the table's words by evaluation; a table word that is an instruction is a command
presented first. -/
theorem tableWordsDecodeAndRun : Obligations.TableWordsDecodeAndRun :=
  ⟨by decide, rfl, rfl, rfl, rfl, rfl, rfl, rfl,
    fun _ _ _ _ hf hw => step_present_command hf (eq_instr_of_instr?_eq_some hw)⟩

/-- Settles O29: the next reset is the one behind the commands, and taking it clears the block. -/
theorem resetIsTakenPastUnacceptedCommands : Obligations.ResetIsTakenPastUnacceptedCommands := by
  intro s k cs rest hf hp
  rw [step_of_faulted hf, hp, afterReset_commands]
  rfl

/-- Settles O42: whatever six words the conversion gives, the host's CONSTRUCT of them is presented and
performed. -/
theorem messageBytesReachHdrdecAsWords : Obligations.MessageBytesReachHdrdecAsWords := by
  intro bytes s hf
  split
  next hnone => rw [constructOfBytes, hnone]; rfl
  next w hw =>
    refine ⟨.command (encode (.construct w)), s.withConstructed w, ?_, ?_, rfl⟩
    · rw [constructOfBytes, hw]; rfl
    · rw [step_present_command hf (decode_encode _), exec_construct_unfaulted w hf]

theorem literalWf_iff {n : Nat} : literalWf n = true ↔ n ≤ 0xFFFF := decide_eq_true_iff

/-- A literal in range keeps its value in 16 bits. -/
theorem toNat_ofNat_of_literalWf {n : Nat} (h : n ≤ 0xFFFF) : (BitVec.ofNat 16 n).toNat = n := by
  rw [BitVec.toNat_ofNat]
  omega

/-- Settles O7: the six range checks stand in front of the six words in index order. -/
theorem assemblerRefusesWideLiterals : Obligations.AssemblerRefusesWideLiterals := by
  refine fun a b c d e f => ⟨fun ⟨ha, hb, hc, hd, he, hf⟩ => ?inRange, fun hwide => ?wide⟩
  case inRange =>
    exact ⟨_, if_pos (by simp [literalWf_iff, ha, hb, hc, hd, he, hf]), toNat_ofNat_of_literalWf ha,
      toNat_ofNat_of_literalWf hb, toNat_ofNat_of_literalWf hc, toNat_ofNat_of_literalWf hd,
      toNat_ofNat_of_literalWf he, toNat_ofNat_of_literalWf hf⟩
  case wide =>
    refine if_neg ?_
    simp only [List.all_cons, List.all_nil, Bool.and_true, Bool.and_eq_true, literalWf_iff]
    omega

end Sys2Proof.Machine

/-! SUPPORT. A performed command as a function of the header it sees: while FAULTED = 0 the header alone says
how a command responds, and its response says whether it faults (60_exceptions.md R147). -/

namespace Sys2Proof.Machine

/-- The response of an accepted command, by the header it sees. -/
def commandResponse (cmd : Command) (hdr : Option Header) : Response :=
  match cmd, hdr with
  | .illegal _, _ => .fault .illegalCommand
  | .instr i, some h => specResponse i h
  | .instr (.construct _), none => .noResult
  | .instr _, none => .fault .noHeader

/-- The header an accepted command leaves: only CONSTRUCT writes it (10_state.md R24). -/
def commandHeader (cmd : Command) (hdr : Option Header) : Option Header :=
  match cmd with
  | .instr (.construct w) => some w
  | _ => hdr

/-- The cause a response records. -/
def Response.cause? (r : Response) : Option Cause :=
  match r with
  | .fault c => some c
  | _ => none

/-- The state after an accepted command. -/
def State.performed (s : State) (cmd : Command) : State :=
  { hdr := commandHeader cmd s.hdr, fault := (commandResponse cmd s.hdr).cause?, port := s.port,
    responses := s.responses ++ [commandResponse cmd s.hdr] }

section
variable {s : State} {c : RawCommand} {h : Header} {rest : List PortEvent}

theorem perform_of_unfaulted (cmd : Command) (hf : s.fault = none) :
    perform cmd s = .next (s.performed cmd) := by
  obtain ⟨hdr, fault, port, responses⟩ := s
  obtain rfl : fault = none := hf
  cases cmd with
  | illegal op => rfl
  | instr i =>
    rw [perform, exec_unfaulted i rfl]
    cases hdr <;> cases i <;> rfl

theorem step_performed (hf : s.fault = none) (hp : s.port = .command c :: rest) :
    step s = .next ((s.setPort rest).performed (decode c)) := by
  rw [step_command_of_unfaulted hf hp]
  exact perform_of_unfaulted (s := s.setPort rest) (decode c) hf

/-- A CONSTRUCT leaves the same state whatever header it sees. -/
theorem performed_construct (w : Header) (hf : s.fault = none) :
    s.performed (.instr (.construct w)) = s.withConstructed w := by
  have h := exec_construct_unfaulted w hf
  rw [← Host.Outcome.next.injEq, ← h]
  exact (perform_of_unfaulted (.instr (.construct w)) hf).symm

/-- Over a header an instruction leaves the header the ordering model gives (20_memory.md R51). -/
theorem performed_hdr_loaded (i : Instr) (hh : s.hdr = some h) :
    (s.performed (.instr i)).hdr = some (headerAfter i h) := by
  cases i with
  | construct w => rfl
  | _ => exact hh

/-- Over a header no instruction faults (42_flags_decode.md R111). -/
theorem performed_fault_loaded (i : Instr) (hh : s.hdr = some h) :
    (s.performed (.instr i)).fault = none := by
  rw [State.performed, hh]
  cases i <;> rfl

/-- The only ways to fault: a reserved code, and without a header any code but CONSTRUCT's. -/
theorem performed_fault_eq_none_iff :
    (s.performed (decode c)).fault = none ↔
      reservedOp c.op = false ∧ (s.hdr = none → c.op = 0b000#3) := by
  cases hr : reservedOp c.op with
  | true => simp [State.performed, decode_of_reserved hr, commandResponse, Response.cause?]
  | false =>
    obtain ⟨i, hi, hop⟩ := decode_of_wf (c := c) (by simp [RawCommand.wf, hr])
    rw [hi, ← hop]
    cases hh : s.hdr with
    | some h => simp [performed_fault_loaded i hh]
    | none => cases i <;> simp [State.performed, hh, commandResponse, Response.cause?, opOf]

/-- A command that does not fault leaves a header. -/
theorem performed_hdr_of_unfaulted (hf : (s.performed (decode c)).fault = none) :
    (s.performed (decode c)).hdr ≠ none := by
  obtain ⟨-, hop⟩ := performed_fault_eq_none_iff.mp hf
  intro hnone
  cases hd : decode c with
  | illegal op => rw [hd] at hf; cases hf
  | instr i =>
    rw [hd] at hnone
    have hcode := (decode_instr hd).2
    cases i with
    | construct w => cases hnone
    | _ => cases hcode.trans (hop hnone)

end

end Sys2Proof.Machine

/-! SUPPORT. Command streams (20_memory.md section 4): the state a stream leaves over a header, the run that
performs it, and the proofs of the statements about streams and merges. -/

namespace Sys2Proof.Machine

/-- The state after a command stream over the header `h`, the port being as it was. -/
def State.streamed (s : State) (h : Header) (is : List Instr) : State :=
  { hdr := some (streamHeader h is), fault := none, port := s.port,
    responses := s.responses ++ streamResponses h is }

section
variable {s : State} {h : Header} {i : Instr} {is : List Instr} {c : RawCommand}
  {cs : List RawCommand} {rest : List PortEvent}

theorem streamed_nil (hf : s.fault = none) (hh : s.hdr = some h) : s.streamed h [] = s :=
  State.eq_of_fields hh.symm hf.symm rfl (List.append_nil _)

/-- A stream goes on from its first command. -/
theorem performed_streamed (i : Instr) (is : List Instr) (hh : s.hdr = some h) :
    (s.performed (.instr i)).streamed (headerAfter i h) is = s.streamed h (i :: is) := by
  simp [State.streamed, State.performed, hh, commandResponse, streamHeader, streamResponses]

/-- A run over presented commands goes on from the first one performed. -/
theorem run_cons (hf : s.fault = none) (hp : s.port = (c :: cs).map .command ++ rest) :
    Host.Core.run core (c :: cs).length s =
      Host.Core.run core cs.length
        ((s.setPort (cs.map .command ++ rest)).performed (decode c)) :=
  run_succ_of_next (step_performed hf hp)

/-- Over a header a stream is performed whole, each command seeing the most recent CONSTRUCT before it
(20_memory.md R51). -/
theorem run_stream (hf : s.fault = none) (hh : s.hdr = some h)
    (hd : cs.map decode = is.map .instr) (hp : s.port = cs.map .command ++ rest) :
    Host.Core.run core cs.length s = .next ((s.streamed h is).setPort rest) := by
  induction cs generalizing s h is with
  | nil =>
    obtain rfl : is = [] := List.map_eq_nil_iff.mp hd.symm
    obtain rfl : s.port = rest := hp
    rw [streamed_nil hf hh]
    rfl
  | cons c cs ih =>
    obtain ⟨i, is, rfl, hi, hd'⟩ := List.map_eq_cons_iff.mp hd.symm
    have hu : (s.setPort (cs.map .command ++ rest)).hdr = some h := hh
    rw [run_cons hf hp, ← hi,
      ih (performed_fault_loaded i hu) (performed_hdr_loaded i hu) hd'.symm rfl,
      performed_streamed i is hu]
    rfl

/-- A stream that constructs first is performed whole from any header and from none. -/
theorem run_construct_stream {w : Header} (hf : s.fault = none)
    (hd : cs.map decode = (Instr.construct w :: is).map .instr)
    (hp : s.port = cs.map .command ++ rest) :
    Host.Core.run core cs.length s = .next (((s.withConstructed w).streamed w is).setPort rest) := by
  obtain ⟨c, cs, rfl, hc, hd'⟩ := List.map_eq_cons_iff.mp hd
  have hu : (s.setPort (cs.map .command ++ rest)).fault = none := hf
  rw [run_cons hf hp, hc, performed_construct w hu]
  exact run_stream (s := (s.setPort _).withConstructed w) hf rfl hd' rfl

/-- Commands sent as the encoder writes them decode to the instructions they are. -/
theorem map_decode_encode (is : List Instr) : (is.map encode).map decode = is.map .instr := by
  rw [List.map_map]
  exact List.map_congr_left fun i _ => decode_encode i

theorem map_ofInstr (is : List Instr) :
    is.map PortEvent.ofInstr = (is.map encode).map .command := List.map_map.symm

theorem headerAfter_accessor (ha : i.isAccessor = true) (h : Header) : headerAfter i h = h := by
  cases i with
  | construct w => cases ha
  | _ => rfl

/-- Accessors leave the header (20_memory.md R50). -/
theorem streamHeader_accessors (ha : ∀ i ∈ is, i.isAccessor = true) : streamHeader h is = h := by
  induction is with
  | nil => rfl
  | cons i is ih =>
    obtain ⟨hi, his⟩ := List.forall_mem_cons.mp ha
    rw [streamHeader, headerAfter_accessor hi, ih his]

/-- Accessors each respond over the one header they find. -/
theorem streamResponses_accessors (ha : ∀ i ∈ is, i.isAccessor = true) :
    streamResponses h is = is.map fun i => specResponse i h := by
  induction is with
  | nil => rfl
  | cons i is ih =>
    obtain ⟨hi, his⟩ := List.forall_mem_cons.mp ha
    rw [streamResponses, headerAfter_accessor hi, ih his, List.map_cons]

/-- What is done to each element keeps a merge a merge. -/
theorem Interleaves.map {α β : Type} (f : α → β) {xs ys zs : List α} (hm : Interleaves xs ys zs) :
    Interleaves (xs.map f) (ys.map f) (zs.map f) := by
  induction hm with
  | nil => exact .nil
  | left x _ ih => exact .left (f x) ih
  | right y _ ih => exact .right (f y) ih

end

/-- Settles O37: a stream over a header is performed whole; from none, CONSTRUCT gives it one and an
accessor faults. -/
theorem streamSeesTheMostRecentConstruct : Obligations.StreamSeesTheMostRecentConstruct := by
  refine fun s cs is rest hf hd hp => ⟨fun h hh => ?loaded, fun w is' _ his => ?constructs,
    fun i is' hh his ha => ?accessor⟩
  case loaded => exact ⟨_, run_stream hf hh hd hp, rfl, rfl, rfl, rfl⟩
  case constructs =>
    subst his
    exact ⟨_, run_construct_stream hf hd hp, rfl, rfl, rfl, List.append_assoc _ _ _⟩
  case accessor =>
    subst his
    obtain ⟨c, cs, rfl, hc, -⟩ := List.map_eq_cons_iff.mp hd
    refine ⟨(s.setPort (cs.map .command ++ rest)).withFault .noHeader, ?_, hh, rfl, rfl⟩
    rw [step_instr hf hp hc]
    exact exec_accessor_noHeader (s := s.setPort _) ha hf hh

/-- Settles O38: the stream ends with IDENTIFIER over the constructed header, which the accessors leave. -/
theorem identifierIsTheConstructedWordZero : Obligations.IdentifierIsTheConstructedWordZero := by
  intro s w is hf ha hp
  have hport : s.port =
      ((Instr.construct w :: (is ++ [.identifier])).map encode).map .command ++ [] := by
    rw [List.append_nil, ← map_ofInstr, hp]
    rfl
  have hrun := run_construct_stream hf (map_decode_encode _) hport
  have hlen : ((Instr.construct w :: (is ++ [.identifier])).map encode).length = is.length + 2 := by
    simp
  rw [hlen] at hrun
  refine ⟨_, hrun, rfl, ?_⟩
  have haccessors : ∀ i ∈ is ++ [.identifier], i.isAccessor = true :=
    List.forall_mem_append.mpr ⟨ha, by simp [Instr.isAccessor]⟩
  simp [State.streamed, streamResponses_accessors haccessors, specResponse]

/-- Settles O39: the merge is a stream of accessors, each responding over the stored header, and mapping
the merge maps both callers' lists. -/
theorem everyMergeGivesEachCallerItsResults : Obligations.EveryMergeGivesEachCallerItsResults := by
  intro s h xs ys zs rest hf hh ha hm hp
  rw [map_ofInstr] at hp
  have hrun := run_stream hf hh (map_decode_encode zs) hp
  rw [List.length_map] at hrun
  exact ⟨_, _, hrun, congrArg some (streamHeader_accessors ha), rfl, rfl,
    congrArg (s.responses ++ ·) (streamResponses_accessors ha), rfl, hm.map _⟩

end Sys2Proof.Machine

/-! SUPPORT. How a run ends (70_reset_and_hazards.md section 5): the end state by recursion on the events
presented, with no count of steps, and the proofs of the statements about runs. -/

namespace Sys2Proof.Machine

/-- The end of the run that presents `es` to the block of `s`, `last` being the end so far: a command is
performed or, while FAULTED = 1, lost (log entry 5), and only a performed command moves the end. -/
def runEvents (last s : State) (es : List PortEvent) : State :=
  match es with
  | [] => last
  | .reset :: es => runEvents last s.takeReset es
  | .command c :: es =>
    match s.fault with
    | none => runEvents (s.performed (decode c)) (s.performed (decode c)) es
    | some _ => runEvents last s es

section
variable {last last' s s' : State} {c : RawCommand} {k : Cause} {es fs : List PortEvent}

theorem runEvents_reset : runEvents last s (.reset :: es) = runEvents last s.takeReset es := rfl

theorem runEvents_command (hf : s.fault = none) :
    runEvents last s (.command c :: es) =
      runEvents (s.performed (decode c)) (s.performed (decode c)) es := by
  rw [runEvents, hf]

theorem runEvents_lost (hf : s.fault = some k) :
    runEvents last s (.command c :: es) = runEvents last s es := by
  rw [runEvents, hf]

/-! ### The run of the model ends as `runEvents` says, but for its port -/

/-- With nothing presented no step performs a command. -/
theorem runToEnd_of_port_nil (n : Nat) (hp : s.port = []) : runToEnd n last s = last := by
  induction n with
  | zero => rfl
  | succ n ih =>
    cases hf : s.fault with
    | none =>
      have hidle : s.acceptsCommand = false := by rw [State.acceptsCommand, takeEvent_nil hf hp]
      rw [runToEnd_succ_of_next (step_idle hf hp), hidle]
      exact ih
    | some k =>
      have hnoReset : ∀ e ∈ s.port, e ≠ .reset := by simp [hp]
      exact runToEnd_succ_of_fault (step_faulted_stuck hf hnoReset)

/-- A reset is taken and leaves the end so far. -/
theorem runToEnd_reset (n : Nat) :
    runToEnd (n + 1) last (s.setPort (.reset :: es)) = runToEnd n last (s.takeReset.setPort es) := by
  have he : takeEvent (s.setPort (.reset :: es)) = some (.reset, s.setPort es) :=
    takeEvent_reset_first (s := s.setPort (.reset :: es)) rfl
  have hreset : (s.setPort (.reset :: es)).acceptsCommand = false := by
    rw [State.acceptsCommand, he]
  rw [runToEnd_succ_of_next (step_of_takeEvent he), hreset]
  rfl

/-- An accepted command is performed, and the end so far is then the state it leaves. -/
theorem runToEnd_command (n : Nat) (hf : s.fault = none) :
    runToEnd (n + 1) last (s.setPort (.command c :: es)) =
      runToEnd n ((s.performed (decode c)).setPort es) ((s.performed (decode c)).setPort es) := by
  have hu : (s.setPort (.command c :: es)).fault = none := hf
  rw [runToEnd_succ_of_next (step_performed hu rfl), acceptsCommand_of_command hu rfl]
  rfl

/-- A faulted block looks past a command. -/
theorem runToEnd_lost (n : Nat) (hf : s.fault = some k) :
    runToEnd (n + 1) last (s.setPort (.command c :: es)) = runToEnd (n + 1) last (s.setPort es) := by
  have hfaulted (es : List PortEvent) : (s.setPort es).fault = some k := hf
  have he : takeEvent (s.setPort (.command c :: es)) = takeEvent (s.setPort es) := by
    rw [takeEvent_faulted (hfaulted _), takeEvent_faulted (hfaulted _)]
    rfl
  have hstep : step (s.setPort (.command c :: es)) = step (s.setPort es) := by
    rw [step_of_faulted (hfaulted _), step_of_faulted (hfaulted _)]
    rfl
  have haccepts :
      (s.setPort (.command c :: es)).acceptsCommand = (s.setPort es).acceptsCommand := by
    rw [State.acceptsCommand, State.acceptsCommand, he]
  rw [runToEnd, runToEnd, hstep, haccepts]

/-- With a step for every event, a run ends as `runEvents` says, ports put aside. -/
theorem runToEnd_setPort {n : Nat} (hn : es.length ≤ n) :
    (runToEnd n last (s.setPort es)).setPort [] = runEvents (last.setPort []) (s.setPort []) es := by
  induction es generalizing n last s with
  | nil => rw [runToEnd_of_port_nil n rfl]; rfl
  | cons e es ih =>
    obtain ⟨n, rfl⟩ := Nat.exists_eq_succ_of_ne_zero (Nat.ne_zero_of_lt hn)
    have hes : es.length ≤ n := Nat.le_of_succ_le_succ hn
    cases e with
    | reset => rw [runToEnd_reset, ih hes]; rfl
    | command c =>
      cases hf : s.fault with
      | none =>
        rw [runToEnd_command n hf, ih hes, runEvents_command (s := s.setPort []) hf]
        rfl
      | some k =>
        rw [runToEnd_lost n hf, ih (Nat.le_succ_of_le hes), runEvents_lost (s := s.setPort []) hf]

theorem endState_setPort (es : List PortEvent) :
    (endState es).setPort [] = runEvents State.reset State.reset es :=
  runToEnd_setPort (Nat.le_refl _)

theorem endState_hdr (es : List PortEvent) :
    (endState es).hdr = (runEvents State.reset State.reset es).hdr := by
  rw [← endState_setPort, State.setPort_hdr]

theorem endState_fault (es : List PortEvent) :
    (endState es).fault = (runEvents State.reset State.reset es).fault := by
  rw [← endState_setPort, State.setPort_fault]

theorem endState_observation (es : List PortEvent) :
    (endState es).observation = (runEvents State.reset State.reset es).observation := by
  rw [← endState_setPort]; rfl

/-! ### Resets behind the last command, and runs that go on after a reset -/

theorem runEvents_resets (h : ∀ e ∈ es, e = .reset) : runEvents last s es = last := by
  induction es generalizing s with
  | nil => rfl
  | cons e es ih =>
    obtain ⟨rfl, hes⟩ := List.forall_mem_cons.mp h
    exact ih hes

/-- What stands first is run first. -/
theorem runEvents_append (last s : State) (es : List PortEvent) :
    ∃ s', ∀ fs, runEvents last s (es ++ fs) = runEvents (runEvents last s es) s' fs := by
  induction es generalizing last s with
  | nil => exact ⟨s, fun _ => rfl⟩
  | cons e es ih =>
    cases e with
    | reset => exact ih last s.takeReset
    | command c =>
      cases hf : s.fault with
      | none =>
        simp only [List.cons_append, runEvents_command hf]
        exact ih _ _
      | some k =>
        simp only [List.cons_append, runEvents_lost hf]
        exact ih last s

/-- From an unfaulted block a command among the events is accepted, so that the end so far is of no
account. -/
theorem runEvents_forgets_last (hf : s.fault = none) (hc : .command c ∈ es) :
    runEvents last s es = runEvents last' s es := by
  induction es generalizing s with
  | nil => cases hc
  | cons e es ih =>
    cases e with
    | reset =>
      have hrest : .command c ∈ es := by simpa using hc
      exact ih (s := s.takeReset) rfl hrest
    | command c' => rw [runEvents_command hf, runEvents_command hf]

/-- The same block: header and fault agree, whatever was presented and delivered (10_state.md R34). -/
def State.SameBlock (s s' : State) : Prop := s.hdr = s'.hdr ∧ s.fault = s'.fault

/-- What a command does to the block depends on the block alone. -/
theorem State.SameBlock.performed (h : s.SameBlock s') (cmd : Command) :
    (s.performed cmd).SameBlock (s'.performed cmd) :=
  ⟨congrArg (commandHeader cmd) h.1,
    congrArg (fun hdr => (commandResponse cmd hdr).cause?) h.1⟩

theorem State.SameBlock.runEvents (hlast : last.SameBlock last') (h : s.SameBlock s') :
    (runEvents last s es).SameBlock (runEvents last' s' es) := by
  induction es generalizing last last' s s' with
  | nil => exact hlast
  | cons e es ih =>
    cases e with
    | reset => exact ih hlast ⟨rfl, rfl⟩
    | command c =>
      cases hf : s.fault with
      | none =>
        rw [runEvents_command hf, runEvents_command (h.2 ▸ hf)]
        exact ih (h.performed _) (h.performed _)
      | some k =>
        rw [runEvents_lost hf, runEvents_lost (h.2 ▸ hf)]
        exact ih hlast h

/-- A run that goes on after a reset ends, with a command behind it, in the block of the run of what
stands behind. -/
theorem runEvents_after_reset (es : List PortEvent) (hc : .command c ∈ fs) :
    (runEvents State.reset State.reset (es ++ .reset :: fs)).SameBlock
      (runEvents State.reset State.reset fs) := by
  obtain ⟨s', happ⟩ := runEvents_append State.reset State.reset es
  rw [happ, runEvents_reset, runEvents_forgets_last (last' := s'.takeReset) rfl hc]
  exact State.SameBlock.runEvents ⟨rfl, rfl⟩ ⟨rfl, rfl⟩

end

/-- Settles O43: resets leave the end that the events before them have. -/
theorem resetsAfterTheLastCommandAreNoPartOfTheRun :
    Obligations.ResetsAfterTheLastCommandAreNoPartOfTheRun := by
  intro es rs hrs
  have hend : runEvents State.reset State.reset (es ++ rs) =
      runEvents State.reset State.reset es := by
    obtain ⟨s', happ⟩ := runEvents_append State.reset State.reset es
    rw [happ, runEvents_resets hrs]
  have hfault : (endState (es ++ rs)).fault = (endState es).fault := by
    rw [endState_fault, hend, endState_fault]
  have hobs : (endState (es ++ rs)).observation = (endState es).observation := by
    rw [endState_observation, hend, endState_observation]
  refine ⟨by rw [EndsWell, EndsWell, hfault], ?_, hfault, congrArg Observation.hdr hobs⟩
  rw [runObservation, runObservation, hfault, hobs]

/-- Settles O44: the reset leaves the block as it was at first, and the command behind it makes an end of
its own. -/
theorem runAfterResetEndsAsIfItBeganThere : Obligations.RunAfterResetEndsAsIfItBeganThere := by
  intro es fs c hc
  obtain ⟨hhdr, hfault⟩ := runEvents_after_reset es hc
  rw [← endState_hdr, ← endState_hdr] at hhdr
  rw [← endState_fault, ← endState_fault] at hfault
  exact ⟨hhdr, hfault, by rw [EndsWell, EndsWell, hfault]⟩

/-! ### Runs of commands -/

section
variable {s : State} {h : Header} {cs : List RawCommand} {is : List Instr}

/-- With no reset presented, a faulted run has ended. -/
theorem runEvents_faulted {last : State} {k : Cause} (hf : s.fault = some k)
    (cs : List RawCommand) : runEvents last s (cs.map .command) = last := by
  induction cs with
  | nil => rfl
  | cons c cs ih => rw [List.map_cons, runEvents_lost hf, ih]

/-- A run of commands ends unfaulted when none is reserved and, without a header, the first is CONSTRUCT:
a command that does not fault leaves a header for the next. -/
theorem runEvents_commands_fault_eq_none_iff (hf : s.fault = none) :
    (runEvents s s (cs.map .command)).fault = none ↔
      (∀ c ∈ cs, reservedOp c.op = false) ∧
      (s.hdr = none → ∀ c rest, cs = c :: rest → c.op = 0b000#3) := by
  induction cs generalizing s with
  | nil => simp [runEvents, hf]
  | cons c cs ih =>
    have hfirst := performed_fault_eq_none_iff (s := s) (c := c)
    rw [List.map_cons, runEvents_command hf, List.forall_mem_cons]
    cases ht : (s.performed (decode c)).fault with
    | none =>
      obtain ⟨hr, hop⟩ := hfirst.mp ht
      have hhdr := performed_hdr_of_unfaulted ht
      rw [ih ht]
      refine ⟨fun ⟨hcs, _⟩ => ⟨⟨hr, hcs⟩, ?_⟩,
        fun ⟨⟨_, hcs⟩, _⟩ => ⟨hcs, fun hnone => absurd hnone hhdr⟩⟩
      rintro hh _ _ ⟨⟩
      exact hop hh
    | some k =>
      rw [runEvents_faulted ht, ht]
      refine iff_of_false nofun fun ⟨⟨hr, _⟩, hop⟩ => ?_
      rw [hfirst.mpr ⟨hr, fun hh => hop hh c cs rfl⟩] at ht
      cases ht

/-- Over a header a run ends in the state its stream leaves. -/
theorem runEvents_stream (hf : s.fault = none) (hh : s.hdr = some h) :
    runEvents s s (is.map PortEvent.ofInstr) = s.streamed h is := by
  induction is generalizing s h with
  | nil => exact (streamed_nil hf hh).symm
  | cons i is ih =>
    rw [List.map_cons, PortEvent.ofInstr, runEvents_command hf, decode_encode,
      ih (performed_fault_loaded i hh) (performed_hdr_loaded i hh), performed_streamed i is hh]

/-- The result a response carries. -/
def Response.result? (r : Response) : Option Result :=
  match r with
  | .result v => some v
  | _ => none

theorem State.results_eq (s : State) : s.results = s.responses.filterMap Response.result? := by
  refine congrArg (List.filterMap · s.responses) (funext fun r => ?_)
  cases r <;> rfl

/-- A stream over a header responds with results alone, but for the CONSTRUCTs. -/
theorem streamResponses_results (h : Header) (is : List Instr) :
    ((streamResponses h is).filterMap Response.result?).map .result =
      (streamResponses h is).filter (· ≠ .noResult) := by
  induction is generalizing h with
  | nil => rfl
  | cons i is ih =>
    cases i with
    | construct w => exact ih w
    | _ => exact congrArg (List.cons _) (ih h)

/-- Each accessor of a stream over a header has one result. -/
theorem streamResponses_results_length (h : Header) (is : List Instr) :
    ((streamResponses h is).filterMap Response.result?).length =
      (is.filter Instr.isAccessor).length := by
  induction is generalizing h with
  | nil => rfl
  | cons i is ih =>
    cases i with
    | construct w => exact ih w
    | _ => exact congrArg (· + 1) (ih h)

/-- The end of a run from reset that constructs first. -/
theorem runEvents_construct_stream (w : Header) (is : List Instr) :
    runEvents State.reset State.reset ((Instr.construct w :: is).map PortEvent.ofInstr) =
      (State.reset.withConstructed w).streamed w is := by
  rw [List.map_cons, PortEvent.ofInstr, runEvents_command rfl, decode_encode,
    performed_construct w rfl]
  exact runEvents_stream rfl rfl

end

/-- Settles O40: from reset there is no header, so the first command has to be CONSTRUCT. -/
theorem runEndsWellExactlyWhenConstructComesFirst :
    Obligations.RunEndsWellExactlyWhenConstructComesFirst := by
  intro cs
  rw [EndsWell, endState_fault, runEvents_commands_fault_eq_none_iff rfl]
  simp only [← Bool.not_eq_true, reservedOp_eq_true, not_or, State.reset_hdr, true_imp_iff]

/-- Settles O41: the run ends where the stream leaves the constructed block, and of its responses the
results are the accessors'. -/
theorem runObservesOneResultPerAccessor : Obligations.RunObservesOneResultPerAccessor := by
  intro w is
  have hend := runEvents_construct_stream w is
  have hresults : (endState ((Instr.construct w :: is).map PortEvent.ofInstr)).results =
      (streamResponses w is).filterMap Response.result? := by
    have hobs := congrArg Observation.results
      (endState_observation ((Instr.construct w :: is).map PortEvent.ofInstr))
    rw [hend] at hobs
    exact hobs.trans (State.results_eq _)
  refine ⟨?_, ?_, ?_, ?_⟩
  · rw [EndsWell, endState_fault, hend]; rfl
  · rw [endState_hdr, hend]; rfl
  · rw [hresults, streamResponses_results]
  · rw [hresults, streamResponses_results_length]

end Sys2Proof.Machine
